-- ==== Sys2Proof/Word.lean ====
section
/-! DEFINITION. The 32-bit word of the register interface and the two symbol alphabets
(00_scope.md rules R7 to R9). -/

namespace Sys2Proof

/-- A register of the window, and a command word: 32 bits (10_state.md, 30_encoding.md R80). -/
abbrev Word := BitVec 32

/-- One byte lane of a word (20_memory.md R66). -/
abbrev Byte := BitVec 8

/-- An AM symbol, R9. `unset` is the sentinel for a position not yet written. -/
inductive AmSym where
  | zero
  | one
  | mark
  | unset
deriving DecidableEq, Repr, Inhabited

/-- A PM symbol, R9. The PM channel has no mark. -/
inductive PmSym where
  | zero
  | one
  | unset
deriving DecidableEq, Repr, Inhabited

end Sys2Proof
end

