-- ==== Sys2Proof/Syntax.lean ====
section
/-! DEFINITION. The command set: one constructor per row of spec/opcode_table.json
(30_encoding.md rule R81). -/

namespace Sys2Proof

/-- A command. Operands are the immediates of R82; every other operand is a fixed register. -/
inductive Instr where
  /-- `NOP`, R230. -/
  | nop
  /-- `ENC_AM`, R140. -/
  | encAm
  /-- `ENC_PM`, R160. -/
  | encPm
  /-- `ENC_TC`, R177. -/
  | encTc
  /-- `DEC_AM`, R190. -/
  | decAm
  /-- `RX_FEED SYM`, R212. All four symbol codes are encodable (R85). -/
  | rxFeed (sym : AmSym)
  /-- `RX_RESET`, R220. -/
  | rxReset
  /-- `HAMMING`, R112. -/
  | hamming
  /-- `LFSR_RD INDEX`, R117. -/
  | lfsrRd (index : Nat)
  /-- `BCD_PACK N`, R105. -/
  | bcdPack (n : Nat)
  /-- `BCD_UNPACK N`, R106. -/
  | bcdUnpack (n : Nat)
  /-- `MOC`, R124. -/
  | moc
  /-- `MINLEN`, R125. -/
  | minlen
  /-- `SOFT_RESET`, R231. -/
  | softReset
deriving DecidableEq, Repr

end Sys2Proof
end

