-- ==== Sys2Proof/WellFormed.lean ====
section
/-! DEFINITION. Which terms of `Instr` a command word can carry: an immediate is the 8-bit field
`CMD[15:8]` (30_encoding.md rules R80, R82). The narrower operand ranges of R85 to R87 are checked
when the command runs (R88), not here. -/

namespace Sys2Proof

/-- The operand fits the field that carries it, R82. -/
def Instr.wellFormed : Instr → Bool
  | .nop => true
  | .encAm => true
  | .encPm => true
  | .encTc => true
  | .decAm => true
  | .rxFeed _ => true
  | .rxReset => true
  | .hamming => true
  | .lfsrRd index => decide (index < 256)
  | .bcdPack n => decide (n < 256)
  | .bcdUnpack n => decide (n < 256)
  | .moc => true
  | .minlen => true
  | .softReset => true

end Sys2Proof
end

