-- ==== Sys2Proof/Decode.lean ====
section
/-! DEFINITION. The decoder of 30_encoding.md rule R88, total on every word, and the encoder of
R80 to R82 and R90. -/

namespace Sys2Proof

/-- Why a word encodes no command (R241 gives them one outcome, `ILLEGAL`). -/
inductive Undecodable where
  /-- `CMD[31:16]` is not 0, R83. -/
  | reservedBits
  /-- `OPC` is 0x0E to 0xFF, R84. -/
  | reservedOpcode
  /-- `RX_FEED` with `CMD[15:10]` not 0, R83. -/
  | symbolBits
  /-- `IMM8` is not 0 where the opcode requires 0, R83. -/
  | immediate
  /-- The bytes are not the four lanes of one word, R89. -/
  | notOneWord
deriving DecidableEq, Repr

/-- R7: the unsigned field of `len` bits of `w` from bit `lo` up. -/
def bitField (w : Word) (lo len : Nat) : Nat := w.toNat / 2 ^ lo % 2 ^ len

/-- R33, the AM column: the symbol of a 2-bit code. -/
def symOfCode : Nat → AmSym
  | 0 => .zero
  | 1 => .one
  | 2 => .mark
  | _ => .unset

/-- R33, the AM column: the 2-bit code of a symbol. -/
def symCode : AmSym → Nat
  | .zero => 0
  | .one => 1
  | .mark => 2
  | .unset => 3

/-- R33, the PM column: the 2-bit code of a symbol (code 2 is never held). -/
def pmSymCode : PmSym → Nat
  | .zero => 0
  | .one => 1
  | .unset => 3

/-- A command whose `IMM8` must be 0, R82 and R83. -/
def plainCommand (imm : Nat) (i : Instr) : Except Undecodable Instr :=
  if imm ≠ 0 then .error .immediate else .ok i

/-- R88 after the reserved half-word: the opcode `op` and the immediate `imm`. -/
def decodeFields (op imm : Nat) : Except Undecodable Instr :=
  match op with
  | 0x00 => plainCommand imm .nop
  | 0x01 => plainCommand imm .encAm
  | 0x02 => plainCommand imm .encPm
  | 0x03 => plainCommand imm .encTc
  | 0x04 => plainCommand imm .decAm
  | 0x05 => if imm / 4 ≠ 0 then .error .symbolBits else .ok (.rxFeed (symOfCode (imm % 4)))
  | 0x06 => plainCommand imm .rxReset
  | 0x07 => plainCommand imm .hamming
  | 0x08 => .ok (.lfsrRd imm)
  | 0x09 => .ok (.bcdPack imm)
  | 0x0A => .ok (.bcdUnpack imm)
  | 0x0B => plainCommand imm .moc
  | 0x0C => plainCommand imm .minlen
  | 0x0D => plainCommand imm .softReset
  | _ => .error .reservedOpcode

/-- R88: the command a 32-bit word encodes. -/
def decode (w : Word) : Except Undecodable Instr :=
  if bitField w 16 16 ≠ 0 then .error .reservedBits
  else decodeFields (bitField w 0 8) (bitField w 8 8)

/-- R66: byte lane `k` of a word carries bits [8k+7 : 8k]. -/
def byteLane (w : Word) (k : Nat) : Byte := BitVec.ofNat 8 (bitField w (8 * k) 8)

/-- R66: the word whose lanes 0 to 3 are the given bytes. -/
def wordOfLanes (b0 b1 b2 b3 : Byte) : Word :=
  BitVec.ofNat 32 (b0.toNat + 2 ^ 8 * b1.toNat + 2 ^ 16 * b2.toNat + 2 ^ 24 * b3.toNat)

/-- The decoder on bytes, lowest lane first: a command is exactly one word (R89). -/
def decodeBytes : List Byte → Except Undecodable Instr
  | [b0, b1, b2, b3] => decode (wordOfLanes b0 b1 b2 b3)
  | _ => .error .notOneWord

/-- R81, the `OPC` column. -/
def opcode : Instr → Nat
  | .nop => 0x00
  | .encAm => 0x01
  | .encPm => 0x02
  | .encTc => 0x03
  | .decAm => 0x04
  | .rxFeed _ => 0x05
  | .rxReset => 0x06
  | .hamming => 0x07
  | .lfsrRd _ => 0x08
  | .bcdPack _ => 0x09
  | .bcdUnpack _ => 0x0A
  | .moc => 0x0B
  | .minlen => 0x0C
  | .softReset => 0x0D

/-- R81 and R82, the `IMM8` column. -/
def imm8 : Instr → Nat
  | .nop => 0
  | .encAm => 0
  | .encPm => 0
  | .encTc => 0
  | .decAm => 0
  | .rxFeed sym => symCode sym
  | .rxReset => 0
  | .hamming => 0
  | .lfsrRd index => index
  | .bcdPack n => n
  | .bcdUnpack n => n
  | .moc => 0
  | .minlen => 0
  | .softReset => 0

/-- R90: the encoding `OPC | (IMM8 << 8)` of a well-formed command. -/
def encode (i : Instr) : Word := BitVec.ofNat 32 (opcode i + 2 ^ 8 * imm8 i)

/-- The command the decoder reads from a row of spec/opcode_table.json filled in as `w`: its `nbits`
bits, the bits above them 0, laid out in byte lanes. No command is longer than 32 bits (R89). -/
def decodeTableWord (nbits w : Nat) : Option Instr :=
  if nbits ≤ 32 then
    let cmd : Word := BitVec.ofNat 32 (w % 2 ^ nbits)
    (decodeBytes [byteLane cmd 0, byteLane cmd 1, byteLane cmd 2, byteLane cmd 3]).toOption
  else none

end Sys2Proof
end

