-- ==== Sys2Proof/Config.lean ====
section
/-! DEFINITION. The parameters of 00_scope.md rule R6: what an implementation fixes, and the two
values the spec leaves OPEN (opaque constants without a body: nothing can be proved of their value). -/

namespace Sys2Proof.Config

/-- R6 `YEAR_MIN`. -/
abbrev yearMin : Nat := 1900

/-- R6 `YEAR_MAX` (D12). -/
abbrev yearMax : Nat := 9999

/-- R6 `UT1_MAX`, in milliseconds (C1). -/
abbrev ut1Max : Nat := 900

/-- R6 `EPOCH`, the origin of the decoder's two-digit year (R128; assumption log 7). -/
abbrev epoch : Nat := 1970

/-- R6 `POS_LEAP_WHEN_UT1_NONNEG`, the value the table gives (R127; assumption log 6). -/
def posLeapWhenUt1Nonneg : Bool := true

/-- The first hour boundary of the seqno rule, R172. -/
abbrev seqnoHourLow : Nat := 4

/-- The second hour boundary of the seqno rule, R172; 11 is authoritative (I2; assumption log 7). -/
abbrev seqnoHourHigh : Nat := 11

/-- R6 `ID_VALUE`: the ASCII bytes "WWVB". -/
def idValue : Word := 0x57575642

/-- R174 `FTW`, the fixed timing word: 106 bits, OPEN, bit 0 first in transmission order
(assumption log 5). -/
opaque ftw : Vector Bool 106

/-- Which 128-byte block of the platform's address space holds the window: OPEN (R60; assumption
log 4). -/
opaque windowNumber : Nat

/-- R60 `BASE`, the window's address: any multiple of 128. -/
def base : Nat := 128 * windowNumber

end Sys2Proof.Config
end

