-- ==== Sys2Proof/Machine/State.lean ====
section
/-! DEFINITION. The state of the block as 10_state.md gives it, plain data, and its reset value
(70_reset_and_hazards.md rule R270). Two fields, `port` and `response`, are the model's own
(assumption log 1 and 2): they stand for the host's side of the bus. -/

namespace Sys2Proof.Machine

/-- The AM channel of the timecode: 61 cells (R31). -/
abbrev AmBuf := Vector AmSym 61

/-- The PM channel of the timecode: 61 cells (R32). -/
abbrev PmBuf := Vector PmSym 61

/-- A time value, R11: the fields of `TV_*` (R24 to R26) and of `TVO_*` (R36 to R38). Only the
non-reserved fields are stored (R41). -/
structure TimeValue where
  /-- `YEAR`, full calendar year. -/
  year : BitVec 14
  /-- `DAYS`, 1-based day of year. -/
  days : BitVec 9
  /-- `HOUR`. -/
  hour : BitVec 5
  /-- `MINUTE`. -/
  minute : BitVec 6
  /-- `DST`: 2 * is_dst(tomorrow) + is_dst(today). -/
  dst : BitVec 2
  /-- `UT1`, two's complement milliseconds. -/
  ut1 : BitVec 16
  /-- `LS`, leap-second flag. -/
  ls : Bool
  /-- `LY`, leap-year flag. -/
  ly : Bool
deriving DecidableEq, Repr

/-- The fields of `STATUS`, R34. -/
structure Status where
  ok : Bool
  illegal : Bool
  badArg : Bool
  valid : Bool
  emit : Bool
  sticky : Bool
deriving DecidableEq, Repr

/-- `rx_state`, R210; the numbers 1 to 4 are `RX_STAT.STATE`. -/
inductive RxState where
  | unsynced
  | oneMark
  | twoMarks
  | inMinute
deriving DecidableEq, Repr

/-- What a receiver transition gives, R221: the new `rx_state` and `rx_acc`, and the minute it emits
if it emits one. -/
structure RxResult where
  state : RxState
  acc : List AmSym
  emitted : Option (List AmSym)
deriving DecidableEq, Repr

/-- The two errors `STATUS` records, R240. -/
inductive ErrorKind where
  | illegal
  | badArg
deriving DecidableEq, Repr

/-- What reading a BCD field gives, R104. -/
inductive FieldRead where
  /-- a natural number -/
  | value (n : Nat)
  /-- the rule's `none`: a digit above 9 -/
  | noDigit
  /-- the rule's `bad`: a cell that is neither `ZERO` nor `ONE` -/
  | bad
deriving DecidableEq, Repr

/-- The registers of the window, R61. -/
inductive Reg where
  | id
  | cmd
  | status
  | tcLen
  | tvDate
  | tvTime
  | tvUt1
  | dstNext
  | opa
  | res
  | rxStat
  | tvoDate
  | tvoTime
  | tvoUt1
  | amBuf (k : Fin 4)
  | pmBuf (k : Fin 4)
deriving DecidableEq, Repr

/-- What a bus access asks for, R62 and R71. -/
inductive BusOp where
  | read
  | write (v : Word)
  /-- an atomic read-modify-write, load-reserved or store-conditional access -/
  | atomic
deriving DecidableEq, Repr

/-- One host access to the window: what it asks, its byte offset from `BASE`, its width in bits and
its byte enables (R60, R62). -/
structure BusAccess where
  op : BusOp
  offset : BitVec 7
  width : Nat
  enables : BitVec 4
deriving DecidableEq, Repr

/-- What the host can do to the block, R256: an access, or a hardware reset. -/
inductive HostEvent where
  | access (a : BusAccess)
  | hardReset
deriving DecidableEq, Repr

/-- What the port answered to the last interaction it completed, R256 (the model's own record). -/
inductive BusResponse where
  /-- nothing has been answered yet -/
  | idle
  /-- a write, a command or a reset completed -/
  | done
  /-- the data of a read -/
  | data (w : Word)
deriving DecidableEq, Repr

/-- Why the window does not accept an access, R243. -/
inductive BusErrCause where
  /-- not a whole 32-bit read or write, R62 and R71 -/
  | width
  /-- the offset is not a multiple of 4, R63 -/
  | misaligned
  /-- no register at the offset, R64 -/
  | unmapped
  /-- a write to a read-only register, R65 -/
  | readOnly
deriving DecidableEq, Repr

/-- The reasons a step stops with a fault. -/
inductive Fault where
  /-- `BUSERR`: raised by the step that serves an access the window does not accept. "A model records
  the access as a fault of the host program and gives the block no step for it" (R243). Safe: the
  block's state is unchanged, and the model goes no further where a platform might (assumption
  log 3). -/
  | busErr (cause : BusErrCause)
deriving DecidableEq, Repr

/-- The reasons the model has no meaning for a command. -/
inductive Refusal where
  /-- An instruction of the table whose meaning is not written: answered by no arm of `exec`. Safe. -/
  | notModelled (mnemonic : String)
deriving DecidableEq, Repr

/-- The state of the block, 10_state.md. `ID` is a constant and `CMD` holds no state (R22, R23). -/
structure State where
  /-- `STATUS`, R34. -/
  status : Status
  /-- `TC_LEN.LEN`, R30. -/
  tcLen : BitVec 8
  /-- `TV_DATE`, `TV_TIME` and `TV_UT1`, R24 to R26. -/
  tv : TimeValue
  /-- `DST_NEXT`, R27. -/
  dstNext : BitVec 6
  /-- `OPA`, R28. -/
  opa : Word
  /-- `RES`, R29. -/
  res : Word
  /-- `TVO_DATE`, `TVO_TIME` and `TVO_UT1`, R36 to R38. -/
  tvo : TimeValue
  /-- `AM[0..60]`, R31. -/
  am : AmBuf
  /-- `PM[0..60]`, R32. -/
  pm : PmBuf
  /-- `rx_state`, R39. -/
  rxState : RxState
  /-- `rx_acc`, R39. -/
  rxAcc : List AmSym
  /-- The model's own: the host interactions still to be served, oldest first (assumption log 1). -/
  port : List HostEvent
  /-- The model's own: what the host was last answered (assumption log 2). -/
  response : BusResponse
deriving DecidableEq, Repr

/-- The time value with every field 0, R270. -/
def TimeValue.zero : TimeValue :=
  { year := 0, days := 0, hour := 0, minute := 0, dst := 0, ut1 := 0, ls := false, ly := false }

/-- `STATUS` with every bit 0, R270. -/
def Status.clear : Status :=
  { ok := false, illegal := false, badArg := false, valid := false, emit := false, sticky := false }

/-- The machine after a hardware reset, R270; nothing is pending at the port (assumption log 1, 2). -/
def State.reset : State :=
  { status := Status.clear
    tcLen := 0
    tv := TimeValue.zero
    dstNext := 0
    opa := 0
    res := 0
    tvo := TimeValue.zero
    am := Vector.replicate 61 .unset
    pm := Vector.replicate 61 .unset
    rxState := .unsynced
    rxAcc := []
    port := []
    response := .idle }

end Sys2Proof.Machine
end

