-- ==== Sys2Proof/Machine/Flags.lean ====
section
/-! DEFINITION. The one set of flags the block has: `STATUS` (10_state.md rule R34) and how a command
updates it (60_exceptions.md rule R245). -/

namespace Sys2Proof.Machine

/-- R245: `STATUS` after a command that raised `e` (or nothing), with the `VALID` and `EMIT` values
its rule gives. -/
def statusAfter (old : Status) (e : Option ErrorKind) (valid emit : Bool) : Status :=
  { ok := e.isNone
    illegal := e == some .illegal
    badArg := e == some .badArg
    valid := e.isNone && valid
    emit := e.isNone && emit
    sticky := old.sticky || e.isSome }

/-- R231: `STATUS` after `SOFT_RESET`, the one exception to R245. -/
def statusAfterSoftReset : Status := { Status.clear with ok := true }

/-- R34: the word `STATUS` reads as. -/
def statusWord (st : Status) : Word :=
  BitVec.ofNat 32
    (st.ok.toNat + 2 * st.illegal.toNat + 4 * st.badArg.toNat + 8 * st.valid.toNat
      + 16 * st.emit.toNat + 256 * st.sticky.toNat)

end Sys2Proof.Machine
end

