-- ==== Sys2Proof/Machine/Operands.lean ====
section
/-! DEFINITION. The operands a command reads and the check each command makes of them before it
writes anything (60_exceptions.md rule R242). -/

namespace Sys2Proof.Machine

/-- R11: `TV.ut1` as an integer, in milliseconds (R26: sign extended). -/
abbrev ut1Of (tv : TimeValue) : Int := tv.ut1.toInt

/-- R129 `valid_tv`: the check of every command that reads `TV`. -/
def validTv (tv : TimeValue) : Bool :=
  decide (Config.yearMin ≤ tv.year.toNat) && decide (tv.year.toNat ≤ Config.yearMax)
    && decide (1 ≤ tv.days.toNat) && decide (tv.days.toNat ≤ if tv.ly then 366 else 365)
    && decide (tv.hour.toNat ≤ 23) && decide (tv.minute.toNat ≤ 59)
    && decide (-(Config.ut1Max : Int) ≤ ut1Of tv) && decide (ut1Of tv ≤ (Config.ut1Max : Int))

/-- R85 and R222: `UNSET` is encodable but is not a received symbol. -/
def symbolLegal (sym : AmSym) : Bool := sym != .unset

/-- R86: `INDEX` selects one of 255 bits. -/
def indexLegal (index : Nat) : Bool := decide (index ≤ 254)

/-- R87: the legal BCD widths. -/
def widthLegal (n : Nat) : Bool := decide (1 ≤ n) && decide (n ≤ 32)

/-- R112: `OPA[31:26]` is 0. -/
def hammingLegal (opa : Word) : Bool := decide (opa.toNat < 2 ^ 26)

/-- R106: `N` is legal and `OPA` has no 1 at bit `N` or above. -/
def unpackLegal (n : Nat) (opa : Word) : Bool := widthLegal n && decide (opa.toNat < 2 ^ n)

end Sys2Proof.Machine
end

