-- ==== Sys2Proof/Machine/Tables.lean ====
section
/-! DEFINITION. The constant tables of the protocol, each as the rule it cites prints it
(10_state.md rule R40: they are constants, not state). -/

namespace Sys2Proof.Machine

/-- R141 without the marks that depend on the minute's length. -/
def amMarksInside : List Nat := [0, 9, 19, 29, 39, 49]

/-- R192, and the set M of R217: the mark positions inside 0..59. -/
def amMarks : List Nat := [0, 9, 19, 29, 39, 49, 59]

/-- R142, and the set Z of R218. -/
def amZeros : List Nat := [4, 10, 11, 14, 20, 21, 24, 34, 35, 44, 54]

/-- R143. -/
def minutePositions : List Nat := [1, 2, 3, 5, 6, 7, 8]

/-- R144. -/
def hourPositions : List Nat := [12, 13, 15, 16, 17, 18]

/-- R145. -/
def daysPositions : List Nat := [22, 23, 25, 26, 27, 28, 30, 31, 32, 33]

/-- R147. -/
def ut1Positions : List Nat := [40, 41, 42, 43]

/-- R148. -/
def yearPositions : List Nat := [45, 46, 47, 48, 50, 51, 52, 53]

/-- R151. -/
def dstPositions : List Nat := [57, 58]

/-- The data positions that are no BCD field: the UT1 sign, the leap year and the leap second (R194). -/
def flagPositions : List Nat := [36, 37, 38, 55, 56]

/-- R110 `HAMMING_ROWS`: row j lists the bits whose exclusive or is parity bit j (assumption log 7). -/
def hammingRows : List (List Nat) :=
  [[23, 21, 20, 17, 16, 15, 14, 13, 9, 8, 6, 5, 4, 2, 0],
   [24, 22, 21, 18, 17, 16, 15, 14, 10, 9, 7, 6, 5, 3, 1],
   [25, 23, 22, 19, 18, 17, 16, 15, 11, 10, 8, 7, 6, 4, 2],
   [24, 21, 19, 18, 15, 14, 13, 12, 11, 7, 6, 4, 3, 2, 0],
   [25, 22, 20, 19, 16, 15, 14, 13, 12, 8, 7, 5, 4, 3, 1]]

/-- R114: `n` bits of the recurrence from a window of the last seven, oldest first. -/
def lfsrBits : Nat → Bool → Bool → Bool → Bool → Bool → Bool → Bool → List Bool
  | 0, _, _, _, _, _, _, _ => []
  | n + 1, b0, b1, b2, b3, b4, b5, b6 =>
    b0 :: lfsrBits n b1 b2 b3 b4 b5 b6 (b0 ^^ b1 ^^ b2 ^^ b5)

/-- R114: the 255-bit stream, from seven 1-bits. -/
def lfsrStream : List Bool := lfsrBits 255 true true true true true true true

/-- R114 `lfsr[i]`; no rule reads an index above 254 (assumption log 11). -/
def lfsrBit (i : Nat) : Bool := lfsrStream.getD i false

/-- R121: the last days of the months when the `LY` flag is 0. -/
def monthEndsCommon : List Nat := [31, 59, 90, 120, 151, 181, 212, 243, 273, 304, 334, 365]

/-- R121: the last days of the months when the `LY` flag is 1. -/
def monthEndsLeap : List Nat := [31, 60, 91, 121, 152, 182, 213, 244, 274, 305, 335, 366]

/-- R162 `SYNC_T`: 13 bits. -/
def syncWord : Nat := 0x768

/-- R164: the PM position and the bit of the minute of century it carries. -/
def mocPositions : List (Nat × Nat) :=
  [(18, 25), (19, 0), (20, 24), (21, 23), (22, 22), (23, 21), (24, 20), (25, 19), (26, 18),
   (27, 17), (28, 16), (30, 15), (31, 14), (32, 13), (33, 12), (34, 11), (35, 10), (36, 9),
   (37, 8), (38, 7), (40, 6), (41, 5), (42, 4), (43, 3), (44, 2), (45, 1), (46, 0)]

/-- R166 `DST_LS_LUT`: 5-bit codes by `dst_code | (leap_sec_code << 2)` (assumption log 7). -/
def dstLsLut : List Nat :=
  [0b01000, 0b10101, 0b10110, 0b00011,
   0b01000, 0b10101, 0b10110, 0b00011,
   0b00100, 0b01110, 0b10000, 0b01101,
   0b11001, 0b11100, 0b11111, 0b11010]

/-- R167: the PM position and the bit of the DST/leap code it carries. -/
def dstLsPositions : List (Nat × Nat) := [(47, 4), (48, 3), (50, 2), (51, 1), (52, 0)]

end Sys2Proof.Machine
end

