-- ==== Sys2Proof/Machine/Ops.lean ====
section
/-! DEFINITION. The named operations the meanings share: ending a command with or without an error,
cells and bits, and the words a register reads as. -/

namespace Sys2Proof.Machine

/-! ### Ending a command -/

/-- A command that raised nothing: `STATUS` after it, with its `VALID` and `EMIT` (R245). -/
def complete (s : State) (valid emit : Bool) : State :=
  { s with status := statusAfter s.status none valid emit }

/-- Raising an error, the block's whole error entry: only `STATUS` changes (R241, R242, R246). There
is no saved state, no vector and nothing to return from (R250). -/
def raiseError (e : ErrorKind) (s : State) : State :=
  { s with status := statusAfter s.status (some e) false false }

/-- A command whose check comes before every write: `BADARG` where the check fails, else its own
effect (R246). -/
def checked (legal : Bool) (s : State) (effect : State) : Host.Outcome State Fault Refusal :=
  if legal then .next effect else .next (raiseError .badArg s)

/-! ### Bits and cells -/

/-- The number whose bit `k` is `f k`, for `k` below `n` (R7). -/
def bitsToNat (f : Nat → Bool) : Nat → Nat
  | 0 => 0
  | n + 1 => bitsToNat f n + (f n).toNat * 2 ^ n

/-- R9 `sym(b)` for an AM cell. -/
def amSymOfBit (b : Bool) : AmSym := if b then .one else .zero

/-- R9 `sym(b)` for a PM cell. -/
def pmSymOfBit (b : Bool) : PmSym := if b then .one else .zero

/-- `AM[i]`, R10. The rules read cells 0 to 60 only. -/
def amCell (am : AmBuf) (i : Nat) : AmSym := am[i]?.getD .unset

/-- `PM[i]`, R10. The rules read cells 0 to 60 only. -/
def pmCell (pm : PmBuf) (i : Nat) : PmSym := pm[i]?.getD .unset

/-- A sequence of assignments `buf[i] <- v`, in order (R10). -/
def writeCells {α : Type} (buf : Vector α 61) (writes : List (Nat × α)) : Vector α 61 :=
  writes.foldl (fun b w => b.setIfInBounds w.1 w.2) buf

/-- Every cell `UNSET`. -/
def clearAm : AmBuf := Vector.replicate 61 .unset

/-- Every cell `UNSET`. -/
def clearPm : PmBuf := Vector.replicate 61 .unset

/-! ### Register words -/

/-- R24, R36, R190: the word of a date. -/
def dateWord (tv : TimeValue) : Word := tv.year.setWidth 32 ||| tv.days.setWidth 32 <<< 16

/-- R25, R37, R190: the word of a time. -/
def timeWord (tv : TimeValue) : Word :=
  tv.hour.setWidth 32 ||| tv.minute.setWidth 32 <<< 8 ||| tv.dst.setWidth 32 <<< 16
    ||| (BitVec.ofBool tv.ls).setWidth 32 <<< 24 ||| (BitVec.ofBool tv.ly).setWidth 32 <<< 25

/-- R26, R38, R190: the word of a UT1 offset. -/
def ut1Word (tv : TimeValue) : Word := tv.ut1.setWidth 32

/-- R24, R41: a host write of `TV_DATE` stores the non-reserved fields. -/
def setDate (tv : TimeValue) (v : Word) : TimeValue :=
  { tv with year := v.extractLsb' 0 14, days := v.extractLsb' 16 9 }

/-- R25, R41: a host write of `TV_TIME` stores the non-reserved fields. -/
def setTime (tv : TimeValue) (v : Word) : TimeValue :=
  { tv with
    hour := v.extractLsb' 0 5
    minute := v.extractLsb' 8 6
    dst := v.extractLsb' 16 2
    ls := v.getLsbD 24
    ly := v.getLsbD 25 }

/-- R26, R41: a host write of `TV_UT1` stores the non-reserved field. -/
def setUt1 (tv : TimeValue) (v : Word) : TimeValue := { tv with ut1 := v.extractLsb' 0 16 }

/-- R27: the word `DST_NEXT` reads as. -/
def dstNextWord (dn : BitVec 6) : Word := dn.setWidth 32

/-- R27, R41: a host write of `DST_NEXT` stores the non-reserved field. -/
def dstNextOf (v : Word) : BitVec 6 := v.extractLsb' 0 6

/-- R31, R67: word `w` of a buffer of 2-bit codes: cell 16w + j is bits [2j+1 : 2j]; bits of cells
beyond 60 read 0 (R41). -/
def bufferWord (code : Nat → Nat) (w : Nat) : Word :=
  BitVec.ofNat 32
    (bitsToNat (fun k => decide (16 * w + k / 2 < 61) && (code (16 * w + k / 2)).testBit (k % 2)) 32)

/-- R31: the word `AM_BUF(w)` reads as. -/
def amWord (am : AmBuf) (w : Nat) : Word := bufferWord (fun i => symCode (amCell am i)) w

/-- R32: the word `PM_BUF(w)` reads as. -/
def pmWord (pm : PmBuf) (w : Nat) : Word := bufferWord (fun i => pmSymCode (pmCell pm i)) w

/-- R31: a host write of `AM_BUF(w)` replaces the cells of the word, any code accepted. -/
def setAmWord (am : AmBuf) (w : Nat) (v : Word) : AmBuf :=
  Vector.ofFn fun i : Fin 61 =>
    if i.val / 16 = w then symOfCode (bitField v (2 * (i.val % 16)) 2) else am[i]

/-- R35, R210: the number of a receiver state. -/
def rxStateCode : RxState → Nat
  | .unsynced => 1
  | .oneMark => 2
  | .twoMarks => 3
  | .inMinute => 4

/-- R35: the word `RX_STAT` reads as: `STATE` in [2:0] and `COUNT` in [15:8]. -/
def rxStatWord (st : RxState) (acc : List AmSym) : Word :=
  BitVec.ofNat 32 (rxStateCode st) ||| (BitVec.ofNat 8 acc.length).setWidth 32 <<< 8

/-- R30: the word `TC_LEN` reads as. -/
def tcLenWord (len : BitVec 8) : Word := len.setWidth 32

/-- R270: every piece of the block's state at its reset value. What the host still has pending, and
what it was answered, lie outside the block (assumption log 1, 2). -/
def resetBlock (s : State) : State :=
  { State.reset with port := s.port, response := s.response }

end Sys2Proof.Machine
end

