-- ==== Sys2Proof/Machine/Primitives.lean ====
section
/-! DEFINITION. The primitives and the six commands that expose them (40_primitives.md). -/

namespace Sys2Proof.Machine

/-! ### BCD -/

/-- R100 `digit(v, j)`: decimal digit `j` of `v`. -/
def digit (v j : Nat) : Nat := v / 10 ^ j % 10

/-- R100 `bcd_pack(v, n)`, an n-bit number. -/
def bcdPack (v n : Nat) : Nat := bitsToNat (fun k => (digit v (k / 4)).testBit (k % 4)) n

/-- R103, one group: the digit of at most four bits from bit `4 * j` of an n-bit value. -/
def bcdGroup (b n j : Nat) : Nat := b / 2 ^ (4 * j) % 2 ^ min 4 (n - 4 * j)

/-- R103 `bcd_unpack(b, n)`: a natural number, or no result for a digit above 9. -/
def bcdUnpack (b n : Nat) : Option Nat :=
  (List.range ((n + 3) / 4)).foldl
    (fun acc j =>
      acc.bind fun r => if bcdGroup b n j > 9 then none else some (r + bcdGroup b n j * 10 ^ j))
    (some 0)

/-- R102 `put_field`: the writes that store `v` at the ordered positions, most significant first. -/
def fieldWrites (positions : List Nat) (v : Nat) : List (Nat × AmSym) :=
  positions.reverse.zipIdx.map fun p =>
    (p.1, amSymOfBit ((bcdPack v positions.length).testBit p.2))

/-- R104 `get_field`: the number at the ordered positions, most significant first. -/
def getField (am : AmBuf) (positions : List Nat) : FieldRead :=
  if positions.all fun p => amCell am p == .zero || amCell am p == .one then
    match bcdUnpack
        (bitsToNat (fun k => amCell am (positions.reverse.getD k 0) == .one) positions.length)
        positions.length with
    | some r => .value r
    | none => .noDigit
  else .bad

/-! ### Hamming parity -/

/-- R111: the exclusive or of the bits of `v` that a row lists. -/
def rowParity (row : List Nat) (v : Nat) : Bool := row.foldl (fun acc i => acc ^^ v.testBit i) false

/-- R111 `hamming(v)`: parity bit `j` is row `j`'s exclusive or. -/
def hamming (v : Nat) : Nat := bitsToNat (fun j => rowParity (hammingRows.getD j []) v) 5

/-! ### Time-value arithmetic -/

/-- R121 `end_of_month`, by the `LY` flag. -/
def endOfMonth (days : Nat) (ly : Bool) : Bool :=
  (if ly then monthEndsLeap else monthEndsCommon).contains days

/-- R122 `greg_leap`, the Gregorian rule. -/
def gregLeap (y : Nat) : Bool := y % 4 == 0 && (y % 100 != 0 || y % 400 == 0)

/-- R127 `positive_leap`, for either value of the parameter `POS_LEAP_WHEN_UT1_NONNEG`. -/
def positiveLeap (whenNonneg : Bool) (tv : TimeValue) : Bool :=
  if whenNonneg then decide (0 ≤ ut1Of tv) else decide (ut1Of tv < 0)

/-- R120 `minute_length`, for either value of the parameter. -/
def minuteLength (whenNonneg : Bool) (tv : TimeValue) : Nat :=
  if !tv.ls then 60
  else if !(tv.hour.toNat == 23 && tv.minute.toNat == 59) then 60
  else if !endOfMonth tv.days.toNat tv.ly then 60
  else if positiveLeap whenNonneg tv then 61
  else 59

/-- R120 with the parameter's value in this configuration: the length `L` the commands use. -/
def lengthOf (tv : TimeValue) : Nat := minuteLength Config.posLeapWhenUt1Nonneg tv

/-- R126 `leap_sec_code`, for either value of the parameter. -/
def leapSecCode (whenNonneg : Bool) (tv : TimeValue) : Nat :=
  if !tv.ls then 0 else if positiveLeap whenNonneg tv then 2 else 3

/-- R123: the first year of the century. -/
def centuryStart (y : Nat) : Nat := y / 100 * 100

/-- R123: the days of a year. -/
def yearLength (y : Nat) : Nat := 365 + (gregLeap y).toNat

/-- R123: the days of the years from the century's first up to the year before `y`. -/
def daysBeforeYear (y : Nat) : Nat :=
  ((List.range (y - centuryStart y)).map fun k => yearLength (centuryStart y + k)).sum

/-- R123 `moc(TV)`, the minute of century. -/
def minuteOfCentury (tv : TimeValue) : Nat :=
  (daysBeforeYear tv.year.toNat + tv.days.toNat - 1) * 1440 + tv.hour.toNat * 60 + tv.minute.toNat

/-- R128 `full_year`, for any `EPOCH`. -/
def fullYear (epoch y : Nat) : Nat :=
  if y < epoch % 100 then y + epoch / 100 * 100 + 100
  else if y < 100 then y + epoch / 100 * 100
  else y

/-! ### The commands -/

/-- `HAMMING`, R112. -/
def execHamming (s : State) : Host.Outcome State Fault Refusal :=
  checked (hammingLegal s.opa) s
    (complete { s with res := BitVec.ofNat 32 (hamming s.opa.toNat) } false false)

/-- `LFSR_RD INDEX`, R117. -/
def execLfsrRd (index : Nat) (s : State) : Host.Outcome State Fault Refusal :=
  checked (indexLegal index) s
    (complete { s with res := BitVec.ofNat 32 (lfsrBit index).toNat } false false)

/-- `BCD_PACK N`, R105. -/
def execBcdPack (n : Nat) (s : State) : Host.Outcome State Fault Refusal :=
  checked (widthLegal n) s
    (complete { s with res := BitVec.ofNat 32 (bcdPack s.opa.toNat n) } false false)

/-- `BCD_UNPACK N`, R106: no result writes 0 and clears `VALID`, and is no error (R244). -/
def execBcdUnpack (n : Nat) (s : State) : Host.Outcome State Fault Refusal :=
  checked (unpackLegal n s.opa) s
    (complete { s with res := BitVec.ofNat 32 ((bcdUnpack s.opa.toNat n).getD 0) }
      (bcdUnpack s.opa.toNat n).isSome false)

/-- `MOC`, R124. -/
def execMoc (s : State) : Host.Outcome State Fault Refusal :=
  checked (validTv s.tv) s
    (complete { s with res := BitVec.ofNat 32 (minuteOfCentury s.tv) } false false)

/-- `MINLEN`, R125. -/
def execMinlen (s : State) : Host.Outcome State Fault Refusal :=
  checked (validTv s.tv) s
    (complete { s with res := BitVec.ofNat 32 (lengthOf s.tv) } false false)

end Sys2Proof.Machine
end

