-- ==== Sys2Proof/Machine/AmDecoder.lean ====
section
/-! DEFINITION. The AM batch decoder (43_am_decoder.md). -/

namespace Sys2Proof.Machine

/-- R192: every mark position inside 0..59 holds `MARK`. -/
def marksHold (am : AmBuf) : Bool := amMarks.all fun i => amCell am i == .mark

/-- R193: every fixed-zero position holds `ZERO`. -/
def zerosHold (am : AmBuf) : Bool := amZeros.all fun i => amCell am i == .zero

/-- R194, the data positions outside the BCD fields: each holds `ZERO` or `ONE`. -/
def flagsBinary (am : AmBuf) : Bool :=
  flagPositions.all fun i => amCell am i == .zero || amCell am i == .one

/-- R195: the sign pattern is `ONE ZERO ONE` or `ZERO ONE ZERO`. -/
def signHolds (am : AmBuf) : Bool := amCell am 36 != amCell am 37 && amCell am 36 == amCell am 38

/-- R197: the ranges the decoder accepts. -/
def rangesHold (minute hour days : Nat) (ly : Bool) : Bool :=
  !(decide (60 ≤ minute) || decide (24 ≤ hour) || days == 0 || decide (366 < days)
    || (decide (365 < days) && !ly))

/-- R198: the UT1 value from its magnitude digit and the sign cell. -/
def decodedUt1 (magnitude : Nat) (sign : AmSym) : Int :=
  if sign = .one then (magnitude * 100 : Nat) else -((magnitude * 100 : Nat) : Int)

/-- R198 and R199: the time value of the fields, as the registers store it (R190). -/
def decodedValue (am : AmBuf) (minute hour days magnitude yy dst : Nat) : TimeValue :=
  { year := BitVec.ofNat 14 (fullYear Config.epoch yy)
    days := BitVec.ofNat 9 days
    hour := BitVec.ofNat 5 hour
    minute := BitVec.ofNat 6 minute
    dst := BitVec.ofNat 2 dst
    ut1 := BitVec.ofInt 16 (decodedUt1 magnitude (amCell am 38))
    ls := amCell am 56 == .one
    ly := amCell am 55 == .one }

/-- R196, R197 and R199: the fields of a minute whose structure holds. -/
def decodeCells (am : AmBuf) : Option TimeValue :=
  match getField am minutePositions, getField am hourPositions, getField am daysPositions,
      getField am ut1Positions, getField am yearPositions, getField am dstPositions with
  | .value minute, .value hour, .value days, .value magnitude, .value yy, .value dst =>
    if rangesHold minute hour days (amCell am 55 == .one) then
      some (decodedValue am minute hour days magnitude yy dst)
    else none
  | _, _, _, _, _, _ => none

/-- R201 `dec_am(AM)`: a time value, or no result. Cell 60 and `TC_LEN` are not read (R191). -/
def decAm (am : AmBuf) : Option TimeValue :=
  if marksHold am && zerosHold am && flagsBinary am && signHolds am then decodeCells am else none

/-- `DEC_AM`, R190 and R200: no result leaves `TVO_*` as it was and is no error (R244). -/
def execDecAm (s : State) : Host.Outcome State Fault Refusal :=
  match decAm s.am with
  | some tv => .next (complete { s with tvo := tv } true false)
  | none => .next (complete s false false)

end Sys2Proof.Machine
end

