-- ==== Sys2Proof/Machine/AmEncoder.lean ====
section
/-! DEFINITION. The AM timecode encoder (41_am_encoder.md). -/

namespace Sys2Proof.Machine

/-- R141: the marks of a minute of length `len`. -/
def markWrites (len : Nat) : List (Nat × AmSym) :=
  amMarksInside.map (fun i => (i, AmSym.mark))
    ++ (if 60 ≤ len then [(59, AmSym.mark)] else [])
    ++ (if len = 61 then [(60, AmSym.mark)] else [])

/-- R142: the fixed zeros. -/
def zeroWrites : List (Nat × AmSym) := amZeros.map fun i => (i, AmSym.zero)

/-- R146: the triple-redundant UT1 sign, 1 for a non-negative offset. -/
def signWrites (ut1 : Int) : List (Nat × AmSym) :=
  [(36, amSymOfBit (decide (0 ≤ ut1))), (37, amSymOfBit (!decide (0 ≤ ut1))),
   (38, amSymOfBit (decide (0 ≤ ut1)))]

/-- R153: the assignments of `am_encode(TV, L)` after the clear, in order. -/
def amWrites (tv : TimeValue) (len : Nat) : List (Nat × AmSym) :=
  markWrites len
    ++ zeroWrites
    ++ fieldWrites minutePositions tv.minute.toNat
    ++ fieldWrites hourPositions tv.hour.toNat
    ++ fieldWrites daysPositions tv.days.toNat
    ++ signWrites (ut1Of tv)
    ++ fieldWrites ut1Positions ((ut1Of tv).natAbs / 100)
    ++ fieldWrites yearPositions tv.year.toNat
    ++ [(55, amSymOfBit tv.ly), (56, amSymOfBit tv.ls)]
    ++ fieldWrites dstPositions tv.dst.toNat

/-- R153 `am_encode(TV, L)`. -/
def amEncode (tv : TimeValue) (len : Nat) : AmBuf := writeCells clearAm (amWrites tv len)

/-- `ENC_AM`, R140. -/
def execEncAm (s : State) : Host.Outcome State Fault Refusal :=
  checked (validTv s.tv) s
    (complete
      { s with
        am := amEncode s.tv (lengthOf s.tv)
        pm := clearPm
        tcLen := BitVec.ofNat 8 (lengthOf s.tv) }
      false false)

end Sys2Proof.Machine
end

