-- ==== Sys2Proof/Machine/Control.lean ====
section
/-! DEFINITION. The control commands (45_control.md). -/

namespace Sys2Proof.Machine

/-- `NOP`, R230. -/
def execNop (s : State) : Host.Outcome State Fault Refusal := .next (complete s false false)

/-- `SOFT_RESET`, R231 and R271: the reset values everywhere, and `STATUS` = 0x00000001. -/
def execSoftReset (s : State) : Host.Outcome State Fault Refusal :=
  .next { resetBlock s with status := statusAfterSoftReset }

end Sys2Proof.Machine
end

