-- ==== Sys2Proof/Machine/PmEncoder.lean ====
section
/-! DEFINITION. The PM timecode encoder and the full timecode (42_pm_encoder.md). -/

namespace Sys2Proof.Machine

/-- R161: the extended minutes. -/
def extendedMinute (minute : Nat) : Bool :=
  (decide (10 ≤ minute) && decide (minute ≤ 15)) || (decide (40 ≤ minute) && decide (minute ≤ 45))

/-! ### Regular mode -/

/-- R162: the sync word, most significant bit first. -/
def syncWrites : List (Nat × PmSym) :=
  (List.range 13).map fun i => (i, pmSymOfBit (syncWord.testBit (12 - i)))

/-- R163: the parity of the minute of century, most significant bit first. -/
def parityWrites (m : Nat) : List (Nat × PmSym) :=
  (List.range 5).map fun k => (13 + k, pmSymOfBit ((hamming m).testBit (4 - k)))

/-- R164: the bits of the minute of century. -/
def mocWrites (m : Nat) : List (Nat × PmSym) :=
  mocPositions.map fun p => (p.1, pmSymOfBit (m.testBit p.2))

/-- R165: the two reserved bits. -/
def reservedWrites : List (Nat × PmSym) := [(29, .zero), (39, .one)]

/-- R166: the DST/leap code of a time value. -/
def dstLsCode (tv : TimeValue) : Nat :=
  dstLsLut.getD (tv.dst.toNat ||| leapSecCode Config.posLeapWhenUt1Nonneg tv <<< 2) 0

/-- R167: the DST/leap code around the notice bit. -/
def dstLsWrites (tv : TimeValue) : List (Nat × PmSym) :=
  dstLsPositions.map fun p => (p.1, pmSymOfBit ((dstLsCode tv).testBit p.2))

/-- R168: the notice bit. -/
def noticeWrites : List (Nat × PmSym) := [(49, .one)]

/-- R169: the DST-next code, most significant bit first. -/
def dstNextWrites (dn : BitVec 6) : List (Nat × PmSym) :=
  (List.range 6).map fun k => (53 + k, pmSymOfBit (dn.getLsbD (5 - k)))

/-- R170: the positions beyond 58 that the minute has. -/
def tailWrites (len : Nat) : List (Nat × PmSym) :=
  (if 60 ≤ len then [(59, PmSym.zero)] else []) ++ (if len = 61 then [(60, PmSym.zero)] else [])

/-- R178, the regular branch. -/
def regularWrites (tv : TimeValue) (dn : BitVec 6) (len : Nat) : List (Nat × PmSym) :=
  syncWrites
    ++ parityWrites (minuteOfCentury tv)
    ++ mocWrites (minuteOfCentury tv)
    ++ reservedWrites
    ++ dstLsWrites tv
    ++ noticeWrites
    ++ dstNextWrites dn
    ++ tailWrites len

/-! ### Extended mode -/

/-- R172 `seqno(TV)`. -/
def seqno (tv : TimeValue) : Nat :=
  tv.minute.toNat / 30 * 2 +
    match tv.dst.toNat with
    | 0 => 0
    | 3 => 1
    | 2 =>
      if tv.hour.toNat < Config.seqnoHourLow then 0
      else if tv.hour.toNat < Config.seqnoHourHigh then 90
      else 1
    | _ =>
      if tv.hour.toNat < Config.seqnoHourLow then 1
      else if tv.hour.toNat < Config.seqnoHourHigh then 91
      else 0

/-- R173: the 127-bit information word that starts at `start` of the LFSR stream. -/
def infoWord (start : Nat) : List Bool := (List.range 127).map fun k => lfsrBit (start + k)

/-- R171: the 360-bit sequence of a super-frame, around the OPEN `FTW` (R174). -/
def superFrame (start : Nat) : List Bool :=
  infoWord start ++ Config.ftw.toList ++ (infoWord start).reverse

/-- R175: the window of a minute. -/
def extendedWrites (tv : TimeValue) : List (Nat × PmSym) :=
  (List.range 60).map fun i =>
    (i, pmSymOfBit ((superFrame (seqno tv)).getD (60 * (tv.minute.toNat % 10) + i) false))

/-! ### The whole buffer and the commands -/

/-- R178: the assignments of `pm_encode(TV, dn, L)` after the clear, in order. -/
def pmWrites (tv : TimeValue) (dn : BitVec 6) (len : Nat) : List (Nat × PmSym) :=
  if extendedMinute tv.minute.toNat then extendedWrites tv else regularWrites tv dn len

/-- R178 `pm_encode(TV, dn, L)`. -/
def pmEncode (tv : TimeValue) (dn : BitVec 6) (len : Nat) : PmBuf :=
  writeCells clearPm (pmWrites tv dn len)

/-- `ENC_PM`, R160. -/
def execEncPm (s : State) : Host.Outcome State Fault Refusal :=
  checked (validTv s.tv) s
    (complete
      { s with
        am := clearAm
        pm := pmEncode s.tv s.dstNext (lengthOf s.tv)
        tcLen := BitVec.ofNat 8 (lengthOf s.tv) }
      false false)

/-- `ENC_TC`, R177. -/
def execEncTc (s : State) : Host.Outcome State Fault Refusal :=
  checked (validTv s.tv) s
    (complete
      { s with
        am := amEncode s.tv (lengthOf s.tv)
        pm := pmEncode s.tv s.dstNext (lengthOf s.tv)
        tcLen := BitVec.ofNat 8 (lengthOf s.tv) }
      false false)

end Sys2Proof.Machine
end

