-- ==== Sys2Proof/Machine/Receiver.lean ====
section
/-! DEFINITION. The streaming receiver (44_receiver.md). -/

namespace Sys2Proof.Machine

/-- A transition that clears `rx_acc` and emits nothing. -/
def rxGo (st : RxState) : RxResult := { state := st, acc := [], emitted := none }

/-- R217: the state a mark mismatch leads to. -/
def rxResync (prev v : AmSym) : RxState :=
  if v = .mark then (if prev = .mark then .twoMarks else .oneMark) else .unsynced

/-- R216 to R219: state 4 on symbol `v`, where `v` takes position `acc.length`. -/
def rxInMinute (acc : List AmSym) (v : AmSym) : RxResult :=
  if amMarks.contains acc.length != (v == .mark) then rxGo (rxResync (acc.getLastD .unset) v)
  else if amZeros.contains acc.length && v != .zero then rxGo .unsynced
  else if acc.length = 59 then
    { state := .oneMark, acc := [], emitted := some (acc ++ [v]) }
  else { state := .inMinute, acc := acc ++ [v], emitted := none }

/-- R221 `rx_step(v)`, the whole transition on `ZERO`, `ONE` or `MARK`. States 1 to 3 leave `rx_acc`
as it was but for the start of a minute (R213 to R215). -/
def rxStep (st : RxState) (acc : List AmSym) (v : AmSym) : RxResult :=
  match st with
  | .unsynced =>
    { state := if v = .mark then .oneMark else .unsynced, acc := acc, emitted := none }
  | .oneMark =>
    { state := if v = .mark then .twoMarks else .unsynced, acc := acc, emitted := none }
  | .twoMarks =>
    if v = .mark then { state := .twoMarks, acc := acc, emitted := none }
    else { state := .inMinute, acc := [.mark, v], emitted := none }
  | .inMinute => rxInMinute acc v

/-- R219: the AM buffer of an emitted minute: cells 0 to 59 from it, cell 60 `UNSET`. -/
def emittedAm (minute : List AmSym) : AmBuf :=
  Vector.ofFn fun i : Fin 61 => if i.val < 60 then minute.getD i.val .unset else .unset

/-- R219 `emit(acc)`. -/
def emitMinute (minute : List AmSym) (s : State) : State :=
  { s with am := emittedAm minute, pm := clearPm, tcLen := 60 }

/-- R212: what a transition does to the state: the receiver's own fields, and the emission. -/
def applyRx (r : RxResult) (s : State) : State :=
  match r.emitted with
  | some minute => emitMinute minute { s with rxState := r.state, rxAcc := r.acc }
  | none => { s with rxState := r.state, rxAcc := r.acc }

/-- `RX_FEED SYM`, R212 and R222. -/
def execRxFeed (sym : AmSym) (s : State) : Host.Outcome State Fault Refusal :=
  checked (symbolLegal sym) s
    (complete (applyRx (rxStep s.rxState s.rxAcc sym) s) false
      (rxStep s.rxState s.rxAcc sym).emitted.isSome)

/-- `RX_RESET`, R220. -/
def execRxReset (s : State) : Host.Outcome State Fault Refusal :=
  .next (complete { s with rxState := .unsynced, rxAcc := [] } false false)

end Sys2Proof.Machine
end

