-- ==== Sys2Proof/Machine/Dispatch.lean ====
section
/-! DEFINITION. One arm per command of 30_encoding.md rule R81. -/

namespace Sys2Proof.Machine

def exec (i : Instr) (s : State) : Host.Outcome State Fault Refusal :=
  match i with
  | .nop => Sys2Proof.Machine.execNop s
  | .encAm => Sys2Proof.Machine.execEncAm s
  | .encPm => Sys2Proof.Machine.execEncPm s
  | .encTc => Sys2Proof.Machine.execEncTc s
  | .decAm => Sys2Proof.Machine.execDecAm s
  | .rxFeed sym => Sys2Proof.Machine.execRxFeed sym s
  | .rxReset => Sys2Proof.Machine.execRxReset s
  | .hamming => Sys2Proof.Machine.execHamming s
  | .lfsrRd index => Sys2Proof.Machine.execLfsrRd index s
  | .bcdPack n => Sys2Proof.Machine.execBcdPack n s
  | .bcdUnpack n => Sys2Proof.Machine.execBcdUnpack n s
  | .moc => Sys2Proof.Machine.execMoc s
  | .minlen => Sys2Proof.Machine.execMinlen s
  | .softReset => Sys2Proof.Machine.execSoftReset s

end Sys2Proof.Machine
end

