-- ==== Sys2Proof/Machine/Bus.lean ====
section
/-! DEFINITION. The register window as the host sees it (20_memory.md): the address map, which
accesses are accepted, register reads and writes, and the command write. -/

namespace Sys2Proof.Machine

/-! ### The address map -/

/-- R61: the register at a byte offset from `BASE`, if one is mapped there. -/
def regAt : Nat → Option Reg
  | 0x00 => some .id
  | 0x04 => some .cmd
  | 0x08 => some .status
  | 0x0C => some .tcLen
  | 0x10 => some .tvDate
  | 0x14 => some .tvTime
  | 0x18 => some .tvUt1
  | 0x1C => some .dstNext
  | 0x20 => some .opa
  | 0x24 => some .res
  | 0x28 => some .rxStat
  | 0x30 => some .tvoDate
  | 0x34 => some .tvoTime
  | 0x38 => some .tvoUt1
  | 0x40 => some (.amBuf 0)
  | 0x44 => some (.amBuf 1)
  | 0x48 => some (.amBuf 2)
  | 0x4C => some (.amBuf 3)
  | 0x50 => some (.pmBuf 0)
  | 0x54 => some (.pmBuf 1)
  | 0x58 => some (.pmBuf 2)
  | 0x5C => some (.pmBuf 3)
  | _ => none

/-- R61: the offset of a register. -/
def regOffset : Reg → Nat
  | .id => 0x00
  | .cmd => 0x04
  | .status => 0x08
  | .tcLen => 0x0C
  | .tvDate => 0x10
  | .tvTime => 0x14
  | .tvUt1 => 0x18
  | .dstNext => 0x1C
  | .opa => 0x20
  | .res => 0x24
  | .rxStat => 0x28
  | .tvoDate => 0x30
  | .tvoTime => 0x34
  | .tvoUt1 => 0x38
  | .amBuf k => 0x40 + 4 * k.val
  | .pmBuf k => 0x50 + 4 * k.val

/-- R61, R65: the registers a host write reaches. -/
def regWritable : Reg → Bool
  | .id => false
  | .cmd => true
  | .status => false
  | .tcLen => false
  | .tvDate => true
  | .tvTime => true
  | .tvUt1 => true
  | .dstNext => true
  | .opa => true
  | .res => false
  | .rxStat => false
  | .tvoDate => false
  | .tvoTime => false
  | .tvoUt1 => false
  | .amBuf _ => true
  | .pmBuf _ => false

/-- R60, R90: the host address of a register. -/
def hostAddress (r : Reg) : Nat := Config.base + regOffset r

/-- R60: the offset in this block's window that a host address selects, if it lies in the window
(assumption log 4). -/
def windowOffset (address : Nat) : Option (BitVec 7) :=
  if Config.base ≤ address ∧ address < Config.base + 128 then
    some (BitVec.ofNat 7 (address - Config.base))
  else none

/-! ### Which accesses are accepted -/

/-- R243: why the window does not accept an access to register `r`, if it does not. -/
def rightsError (op : BusOp) (r : Reg) : Option BusErrCause :=
  match op with
  | .read => none
  | .write _ => if regWritable r then none else some .readOnly
  | .atomic => some .width

/-- R62, R71: a whole-word read or write with all four byte enables. -/
def wholeWord (a : BusAccess) : Bool :=
  a.op != .atomic && a.width == 32 && a.enables == 0b1111#4

/-- R62 to R65 and R243: the register an accepted access reaches, or the cause of its `BUSERR`. Which
cause is named when several hold is the model's choice (assumption log 3). -/
def acceptAccess (a : BusAccess) : Except BusErrCause Reg :=
  if !wholeWord a then .error .width
  else if a.offset.toNat % 4 ≠ 0 then .error .misaligned
  else
    match regAt a.offset.toNat with
    | none => .error .unmapped
    | some r =>
      match rightsError a.op r with
      | some cause => .error cause
      | none => .ok r

/-! ### Reads and writes -/

/-- R65: the word a register reads as; reserved fields are 0 (R41) and `CMD` reads 0 (R23). -/
def readReg (r : Reg) (s : State) : Word :=
  match r with
  | .id => Config.idValue
  | .cmd => 0
  | .status => statusWord s.status
  | .tcLen => tcLenWord s.tcLen
  | .tvDate => dateWord s.tv
  | .tvTime => timeWord s.tv
  | .tvUt1 => ut1Word s.tv
  | .dstNext => dstNextWord s.dstNext
  | .opa => s.opa
  | .res => s.res
  | .rxStat => rxStatWord s.rxState s.rxAcc
  | .tvoDate => dateWord s.tvo
  | .tvoTime => timeWord s.tvo
  | .tvoUt1 => ut1Word s.tvo
  | .amBuf k => amWord s.am k.val
  | .pmBuf k => pmWord s.pm k.val

/-- R68, R88, R241: a write to `CMD` runs exactly the command its word encodes, or raises `ILLEGAL`. -/
def runCommand (w : Word) (s : State) : Host.Outcome State Fault Refusal :=
  match decode w with
  | .ok i => exec i s
  | .error _ => .next (raiseError .illegal s)

/-- R68: a write to a read-write register stores its fields and has no other effect; a write to `CMD`
runs a command; a read-only register answers `BUSERR` (R65). -/
def writeReg (r : Reg) (v : Word) (s : State) : Host.Outcome State Fault Refusal :=
  match r with
  | .cmd => runCommand v s
  | .tvDate => .next { s with tv := setDate s.tv v }
  | .tvTime => .next { s with tv := setTime s.tv v }
  | .tvUt1 => .next { s with tv := setUt1 s.tv v }
  | .dstNext => .next { s with dstNext := dstNextOf v }
  | .opa => .next { s with opa := v }
  | .amBuf k => .next { s with am := setAmWord s.am k.val v }
  | .id => .fault (.busErr .readOnly)
  | .status => .fault (.busErr .readOnly)
  | .tcLen => .fault (.busErr .readOnly)
  | .res => .fault (.busErr .readOnly)
  | .rxStat => .fault (.busErr .readOnly)
  | .tvoDate => .fault (.busErr .readOnly)
  | .tvoTime => .fault (.busErr .readOnly)
  | .tvoUt1 => .fault (.busErr .readOnly)
  | .pmBuf _ => .fault (.busErr .readOnly)

/-- One host access, served whole (R68, R69, R280), or answered with `BUSERR` (R243). -/
def serveAccess (a : BusAccess) (s : State) : Host.Outcome State Fault Refusal :=
  match acceptAccess a with
  | .error cause => .fault (.busErr cause)
  | .ok r =>
    match a.op with
    | .read => .next { s with response := .data (readReg r s) }
    | .write v => writeReg r v s
    | .atomic => .fault (.busErr .width)

/-- The state in which the port serves an interaction: it is taken off the port, and its answer is
an acknowledge unless the interaction gives another (assumption log 1, 2). -/
def takeFromPort (rest : List HostEvent) (s : State) : State :=
  { s with port := rest, response := .done }

/-- One host interaction: an access, or a hardware reset (R256, R270). -/
def serveEvent (e : HostEvent) (s : State) : Host.Outcome State Fault Refusal :=
  match e with
  | .access a => serveAccess a s
  | .hardReset => .next (resetBlock s)

/-- R5, R69: the port serves its oldest interaction; with none the block stays as it is. -/
def servePort (s : State) : Host.Outcome State Fault Refusal :=
  match s.port with
  | [] => .next s
  | e :: rest => serveEvent e (takeFromPort rest s)

end Sys2Proof.Machine
end

