-- ==== Sys2Proof/Machine/HostProgram.lean ====
section
/-! DEFINITION. The host-program notation of 30_encoding.md rules R90 and R91: each line as the host
interactions it means. -/

namespace Sys2Proof.Machine

/-- An aligned whole-word access to a register, R62. -/
def wordAccess (op : BusOp) (r : Reg) : HostEvent :=
  .access { op := op, offset := BitVec.ofNat 7 (regOffset r), width := 32, enables := 0b1111#4 }

/-- `WR <reg>, <value>`, R90. -/
def hostWrite (r : Reg) (v : Word) : HostEvent := wordAccess (.write v) r

/-- `RD <reg>`, R90. -/
def hostRead (r : Reg) : HostEvent := wordAccess .read r

/-- A command line, R90: `WR CMD, <encoding>`. -/
def hostCommand (i : Instr) : HostEvent := hostWrite .cmd (encode i)

/-- `SETTV`, R91: the three writes of a time value. -/
def setTvEvents (tv : TimeValue) : List HostEvent :=
  [hostWrite .tvDate (dateWord tv), hostWrite .tvTime (timeWord tv), hostWrite .tvUt1 (ut1Word tv)]

/-- `LDAM`, R91: the four writes of a symbol string, `UNSET` beyond its end. -/
def loadAmEvents (symbols : List AmSym) : List HostEvent :=
  [0, 1, 2, 3].map fun k : Fin 4 =>
    hostWrite (.amBuf k) (bufferWord (fun i => symCode (symbols.getD i .unset)) k.val)

/-- `FEEDS`, R91: one `RX_FEED` per symbol, in order. -/
def feedEvents (symbols : List AmSym) : List HostEvent :=
  symbols.map fun v => hostCommand (.rxFeed v)

/-- `SETNEXT`, R91. -/
def setNextEvent (v : Word) : HostEvent := hostWrite .dstNext v

/-- `SETA`, R91. -/
def setOperandEvent (v : Word) : HostEvent := hostWrite .opa v

/-- R69, R275: a finite sequence of interactions, each served whole before the next; a `BUSERR` ends
it. Each is acknowledged as the port acknowledges it (assumption log 2). -/
def serveAll : List HostEvent → State → Host.Outcome State Fault Refusal
  | [], s => .next s
  | e :: rest, s =>
    match serveEvent e (takeFromPort s.port s) with
    | .next t => serveAll rest t
    | .fault r => .fault r
    | .refused r => .refused r

/-- R9: the AM symbol of a character of a symbol string. -/
def symOfChar : Char → Option AmSym
  | '0' => some .zero
  | '1' => some .one
  | '2' => some .mark
  | '.' => some .unset
  | _ => none

/-- The port of a state holding one command write before what it already held: the host writes
`CMD` next (assumption log 1). -/
def commandPending (w : Word) (s : State) : State :=
  { s with port := hostWrite .cmd w :: s.port }

end Sys2Proof.Machine
end

