-- ==== Sys2Proof/Machine/Step.lean ====
section
/-! DEFINITION. One step of the machine: one host interaction, whole (20_memory.md rules R68, R69;
70_reset_and_hazards.md rule R280). -/

namespace Sys2Proof.Machine

/-- One step: the port serves its oldest interaction. -/
def step (s : State) : Host.Outcome State Fault Refusal := servePort s

/-- `s` with a write of the command word `w` (its `nbits` bits, the bits above them 0) as the next host
interaction: the block fetches nothing, so this is where its next command comes from (R21; assumption
log 1). -/
def State.withFetchWord (s : State) (nbits w : Nat) : State :=
  commandPending (BitVec.ofNat 32 (w % 2 ^ nbits)) s

end Sys2Proof.Machine
end

