-- ==== Sys2Proof/Safety.lean ====
section
/-! DEFINITION. The terms the statements use: legal operands as the rules' own numbers give them, what
a run starts from and shows at its end, and the invariant every step keeps. -/

namespace Sys2Proof.Machine

/-! ### Runs -/

/-- R248, R274: no `ILLEGAL` and no `BADARG` since the last reset. -/
def errorFree (s : State) : Prop := s.status.sticky = false

/-- R274, the first alternative: every piece of the block's state at its reset value. -/
def atReset (s : State) : Prop := resetBlock s = s

/-- R274, the second alternative: every piece of the block's state is the result of the stated earlier
sequence of accesses, served from reset. What is still pending at the port, and the last answer, lie
outside the block (assumption log 1, 2). -/
def resultOf (earlier : List HostEvent) (s : State) : Prop :=
  ∃ t, serveAll earlier State.reset = .next t ∧ { t with port := s.port, response := s.response } = s

/-- R274 `clean_entry`. Its other two premises hold of every state: a step serves an access whole, so
none is in flight (R280), and the parameters of R6 are constants of `Config`. -/
def cleanEntry (s : State) : Prop :=
  (atReset s ∨ ∃ earlier : List HostEvent, resultOf earlier s) ∧ errorFree s

/-- The registers of the map of R61, in the order of their offsets. -/
def allRegs : List Reg :=
  [.id, .cmd, .status, .tcLen, .tvDate, .tvTime, .tvUt1, .dstNext, .opa, .res, .rxStat, .tvoDate,
   .tvoTime, .tvoUt1, .amBuf 0, .amBuf 1, .amBuf 2, .amBuf 3, .pmBuf 0, .pmBuf 1, .pmBuf 2, .pmBuf 3]

/-- R275: what the end of a run shows: the value of every register of R61. -/
def observable (s : State) : List Word := allRegs.map fun r => readReg r s

/-- A sequence of `RX_FEED` commands, one per symbol, in order (R91 `FEEDS`, R256). -/
def feedAll : List AmSym → State → Host.Outcome State Fault Refusal
  | [], s => .next s
  | v :: rest, s =>
    match exec (.rxFeed v) s with
    | .next t => feedAll rest t
    | .fault r => .fault r
    | .refused r => .refused r

/-! ### Outcomes and legal operands, in the rules' own numbers -/

/-- R245: `STATUS` after a command that raised nothing. -/
def succeeded (old : Status) (valid emit : Bool) : Status :=
  { ok := true, illegal := false, badArg := false, valid := valid, emit := emit, sticky := old.sticky }

/-- R242: `STATUS` = 0x00000104. -/
def badArgStatus : Status :=
  { ok := false, illegal := false, badArg := true, valid := false, emit := false, sticky := true }

/-- R241: `STATUS` = 0x00000102. -/
def illegalStatus : Status :=
  { ok := false, illegal := true, badArg := false, valid := false, emit := false, sticky := true }

/-- R129. -/
abbrev legalTv (tv : TimeValue) : Prop :=
  1900 ≤ tv.year.toNat ∧ tv.year.toNat ≤ 9999 ∧
  1 ≤ tv.days.toNat ∧ tv.days.toNat ≤ (if tv.ly = true then 366 else 365) ∧
  tv.hour.toNat ≤ 23 ∧ tv.minute.toNat ≤ 59 ∧
  -900 ≤ tv.ut1.toInt ∧ tv.ut1.toInt ≤ 900

/-- The table of R242. -/
def operandsLegal (i : Instr) (s : State) : Prop :=
  match i with
  | .nop => True
  | .encAm => legalTv s.tv
  | .encPm => legalTv s.tv
  | .encTc => legalTv s.tv
  | .decAm => True
  | .rxFeed sym => sym ≠ .unset
  | .rxReset => True
  | .hamming => ∀ k, 26 ≤ k → s.opa.getLsbD k = false
  | .lfsrRd index => index ≤ 254
  | .bcdPack n => 1 ≤ n ∧ n ≤ 32
  | .bcdUnpack n => (1 ≤ n ∧ n ≤ 32) ∧ ∀ k, n ≤ k → s.opa.getLsbD k = false
  | .moc => legalTv s.tv
  | .minlen => legalTv s.tv
  | .softReset => True

/-- R120: the flagged leap second falls in this minute. -/
abbrev leapMinute (tv : TimeValue) : Prop :=
  tv.ls = true ∧ tv.hour.toNat = 23 ∧ tv.minute.toNat = 59 ∧
  tv.days.toNat ∈
    (if tv.ly = true then [31, 60, 91, 121, 152, 182, 213, 244, 274, 305, 335, 366]
     else [31, 59, 90, 120, 151, 181, 212, 243, 273, 304, 334, 365])

/-- R127: the flagged leap second is an insertion, for either value of the parameter. -/
abbrev insertionWhen (whenNonneg : Bool) (tv : TimeValue) : Prop :=
  if whenNonneg = true then 0 ≤ tv.ut1.toInt else tv.ut1.toInt < 0

/-- R127: the flagged leap second is an insertion, by the parameter. -/
abbrev insertion (tv : TimeValue) : Prop := insertionWhen Config.posLeapWhenUt1Nonneg tv

/-- R62 to R65, R71, R243: the accesses the window accepts, by the offsets of R61. -/
def accessAccepted (a : BusAccess) : Prop :=
  a.width = 32 ∧ a.enables = 0b1111#4 ∧ a.offset.toNat % 4 = 0 ∧
  a.offset.toNat < 0x60 ∧ a.offset.toNat ≠ 0x2C ∧ a.offset.toNat ≠ 0x3C ∧
  (a.op = .read ∨
    ((∃ v, a.op = .write v) ∧
      a.offset.toNat ∈ [0x04, 0x10, 0x14, 0x18, 0x1C, 0x20, 0x40, 0x44, 0x48, 0x4C]))

/-- The non-reserved bits of a read-write register other than `CMD` (R24 to R28, R31, R41). -/
def storedBits : Reg → Option Word
  | .tvDate => some 0x01FF3FFF
  | .tvTime => some 0x03033F1F
  | .tvUt1 => some 0x0000FFFF
  | .dstNext => some 0x0000003F
  | .opa => some 0xFFFFFFFF
  | .amBuf k => some (if k = 3 then 0x03FFFFFF else 0xFFFFFFFF)
  | _ => none

/-! ### The AM channel, by position -/

/-- R100, R102: the cells at `positions`, most significant first, carry `v` in BCD: bit `k` is bit
`k mod 4` of decimal digit `k div 4`. -/
def fieldCarries (am : AmBuf) (positions : List Nat) (v : Nat) : Prop :=
  ∀ k < positions.length,
    amCell am (positions.getD (positions.length - 1 - k) 0)
      = if (v / 10 ^ (k / 4) % 10).testBit (k % 4) then .one else .zero

/-- The sum of the weights of the cells that hold `ONE` (the weights of R143 to R151, in tens and
units). -/
def weigh (am : AmBuf) (weights : List (Nat × Nat)) : Nat :=
  (weights.map fun p => if amCell am p.1 = .one then p.2 else 0).sum

/-- The digit groups of R196 that are four bits wide, as weights. -/
def digitGroups : List (List (Nat × Nat)) :=
  [[(5, 8), (6, 4), (7, 2), (8, 1)], [(15, 8), (16, 4), (17, 2), (18, 1)],
   [(25, 8), (26, 4), (27, 2), (28, 1)], [(30, 8), (31, 4), (32, 2), (33, 1)],
   [(40, 8), (41, 4), (42, 2), (43, 1)], [(45, 8), (46, 4), (47, 2), (48, 1)],
   [(50, 8), (51, 4), (52, 2), (53, 1)]]

/-- R196 `minute`. -/
def minuteIn (am : AmBuf) : Nat :=
  weigh am [(1, 40), (2, 20), (3, 10), (5, 8), (6, 4), (7, 2), (8, 1)]

/-- R196 `hour`. -/
def hourIn (am : AmBuf) : Nat :=
  weigh am [(12, 20), (13, 10), (15, 8), (16, 4), (17, 2), (18, 1)]

/-- R196 `days`. -/
def daysIn (am : AmBuf) : Nat :=
  weigh am [(22, 200), (23, 100), (25, 80), (26, 40), (27, 20), (28, 10), (30, 8), (31, 4), (32, 2),
    (33, 1)]

/-- R196 `ut1m`. -/
def magnitudeIn (am : AmBuf) : Nat := weigh am [(40, 8), (41, 4), (42, 2), (43, 1)]

/-- R196 `yy`. -/
def yearIn (am : AmBuf) : Nat :=
  weigh am [(45, 80), (46, 40), (47, 20), (48, 10), (50, 8), (51, 4), (52, 2), (53, 1)]

/-- R196 `dst`. -/
def dstIn (am : AmBuf) : Nat := weigh am [(57, 2), (58, 1)]

/-- The data positions of R194: every position of 0..58 that is neither a mark nor a fixed zero. -/
def dataPositions : List Nat :=
  (List.range 59).filter fun i => !amMarks.contains i && !amZeros.contains i

/-- R192 to R197: the minutes that decode. -/
def decodable (am : AmBuf) : Prop :=
  (∀ i ∈ [0, 9, 19, 29, 39, 49, 59], amCell am i = .mark) ∧
  (∀ i ∈ [4, 10, 11, 14, 20, 21, 24, 34, 35, 44, 54], amCell am i = .zero) ∧
  (∀ i ∈ dataPositions, amCell am i = .zero ∨ amCell am i = .one) ∧
  amCell am 36 ≠ amCell am 37 ∧ amCell am 36 = amCell am 38 ∧
  (∀ g ∈ digitGroups, weigh am g ≤ 9) ∧
  minuteIn am < 60 ∧ hourIn am < 24 ∧ 1 ≤ daysIn am ∧ daysIn am ≤ 366 ∧
  (daysIn am = 366 → amCell am 55 = .one)

/-- R198 and R199: the time value of a minute that decodes, with `EPOCH` = 1970. -/
def valueIn (am : AmBuf) : TimeValue :=
  { year := BitVec.ofNat 14 (if yearIn am < 70 then 2000 + yearIn am else 1900 + yearIn am)
    days := BitVec.ofNat 9 (daysIn am)
    hour := BitVec.ofNat 5 (hourIn am)
    minute := BitVec.ofNat 6 (minuteIn am)
    dst := BitVec.ofNat 2 (dstIn am)
    ut1 := BitVec.ofInt 16
      (if amCell am 38 = .one then 100 * (magnitudeIn am : Int) else -(100 * (magnitudeIn am : Int)))
    ls := decide (amCell am 56 = .one)
    ly := decide (amCell am 55 = .one) }

/-- R211: the symbol position `i` of a minute's skeleton admits. -/
def skeletonAdmits (i : Nat) (v : AmSym) : Prop :=
  if i ∈ [0, 9, 19, 29, 39, 49, 59] then v = .mark
  else if i ∈ [4, 10, 11, 14, 20, 21, 24, 34, 35, 44, 54] then v = .zero
  else v = .zero ∨ v = .one

/-- R211: a valid beginning of a minute's skeleton. -/
def skeletonHolds (symbols : List AmSym) : Prop :=
  ∀ i, (h : i < symbols.length) → skeletonAdmits i symbols[i]

/-- The 60 symbols a minute's AM channel sends first: cells 0 to 59. -/
def sentMinute (am : AmBuf) : List AmSym := (List.range 60).map fun i => amCell am i

/-! ### The PM channel of an extended minute -/

/-- R171, R175: bit `n` of the 360-bit sequence that starts at `start` of the LFSR stream. -/
def frameBit (start n : Nat) : Bool :=
  if n < 127 then lfsrBit (start + n)
  else if h : n - 127 < 106 then Config.ftw[n - 127]
  else lfsrBit (start + (359 - n))

/-- The cells of a PM buffer at `positions` are the bits of `code`, the first the highest. -/
def pmCarries (pm : PmBuf) (positions : List Nat) (code : Nat) : Prop :=
  ∀ k < positions.length,
    pmCell pm (positions.getD k 0) = if code.testBit (positions.length - 1 - k) then .one else .zero

/-! ### The invariant -/

/-- R39, R211: the accumulator is empty outside state 4, and in state 4 holds 2 to 59 symbols of a
valid skeleton. -/
def receiverInv (s : State) : Prop :=
  (s.rxState ≠ .inMinute → s.rxAcc = []) ∧
  (s.rxState = .inMinute → 2 ≤ s.rxAcc.length ∧ s.rxAcc.length ≤ 59 ∧ skeletonHolds s.rxAcc)

/-- R30. -/
def lengthInv (s : State) : Prop :=
  s.tcLen = 0 ∨ s.tcLen = 59 ∨ s.tcLen = 60 ∨ s.tcLen = 61

/-- R34, R240, R248: at most one outcome is recorded, `VALID` and `EMIT` come with `OK` and exclude
each other, and an error has made `STICKY` 1. -/
def statusInv (s : State) : Prop :=
  ¬(s.status.ok = true ∧ s.status.illegal = true) ∧
  ¬(s.status.ok = true ∧ s.status.badArg = true) ∧
  ¬(s.status.illegal = true ∧ s.status.badArg = true) ∧
  ¬(s.status.valid = true ∧ s.status.emit = true) ∧
  (s.status.valid = true → s.status.ok = true) ∧
  (s.status.emit = true → s.status.ok = true) ∧
  (s.status.illegal = true → s.status.sticky = true) ∧
  (s.status.badArg = true → s.status.sticky = true)

/-- R36, R199: `TVO_*` is as reset left it or holds a value the encoders accept. -/
def decodedInv (s : State) : Prop := s.tvo = TimeValue.zero ∨ legalTv s.tvo

/-- R32, R170, R175: the PM cells at or beyond `LEN` are `UNSET`; the others are all `UNSET` or all
written. -/
def pmInv (s : State) : Prop :=
  (∀ i < 61, s.tcLen.toNat ≤ i → pmCell s.pm i = .unset) ∧
  ((∀ i < 61, pmCell s.pm i = .unset) ∨ ∀ i < s.tcLen.toNat, pmCell s.pm i ≠ .unset)

/-- What holds of the block in every state a run reaches. -/
structure Inv (s : State) : Prop where
  receiver : receiverInv s
  length : lengthInv s
  status : statusInv s
  decoded : decodedInv s
  pm : pmInv s

end Sys2Proof.Machine
end

