-- ==== Sys2Proof/Certificates/Slice0/Obligations.lean ====
section
/-! DEFINITION. The statements for the provers. Each says which rule of spec/ it formalises. -/

open Sys2Proof Sys2Proof.Machine

/-! ### Encoding -/

/-- R80 to R82, R88, R90: a well-formed command decodes from its own encoding, whatever its operand. -/
def Obligations.EncodedCommandDecodesToItself : Prop :=
  ∀ i : Instr, i.wellFormed = true → decode (encode i) = .ok i

/-- R80, R88: a word that decodes is the one encoding of what it decodes to, which is well formed. -/
def Obligations.DecodedWordIsItsOnlyEncoding : Prop :=
  ∀ (w : Word) (i : Instr), decode w = .ok i → i.wellFormed = true ∧ encode i = w

/-- R81, R90: words written out from the encoding table decode to their commands. -/
def Obligations.SpecEncodingsDecode : Prop :=
  decode 0x00000000 = .ok .nop ∧ decode 0x00000003 = .ok .encTc ∧ decode 0x00000004 = .ok .decAm ∧
  decode 0x00000205 = .ok (.rxFeed .mark) ∧ decode 0x00000305 = .ok (.rxFeed .unset) ∧
  decode 0x00000709 = .ok (.bcdPack 7) ∧ decode 0x0000FF08 = .ok (.lfsrRd 255) ∧
  decode 0x0000000D = .ok .softReset

/-- R66, R89: the decoder on the four byte lanes of a word is the decoder on the word. -/
def Obligations.ByteLanesDecodeAsTheWord : Prop :=
  ∀ w : Word, decodeBytes [byteLane w 0, byteLane w 1, byteLane w 2, byteLane w 3] = decode w

/-! ### The step -/

/-- R21, R68: serving a whole-word write to `CMD` whose word decodes is running that command, with the
write taken off the port and acknowledged. The port, the acknowledge and `withFetchWord` are the model's
choice (assumption log 1, 2). -/
def Obligations.StepRunsTheDecodedCommand : Prop :=
  (∀ (s : State) (rest : List HostEvent) (w : Word) (i : Instr),
    s.port = .access { op := .write w, offset := 0x04#7, width := 32, enables := 0b1111#4 } :: rest →
    decode w = .ok i →
    step s = exec i { s with port := rest, response := .done }) ∧
  (∀ (s : State) (w : Nat) (i : Instr), decode (BitVec.ofNat 32 w) = .ok i → w < 2 ^ 32 →
    step (s.withFetchWord 32 w) = exec i { s with response := .done })

/-- R241: a `CMD` word that meets one of the rule's conditions changes `STATUS` to 0x00000102 and
nothing else; every other word runs the command it decodes to. -/
def Obligations.IllegalExactlyOnTheWordsOfTheRule : Prop :=
  statusWord illegalStatus = 0x00000102 ∧
  ∀ (s : State) (w : Word),
    let op := w.toNat % 256
    let imm := w.toNat / 256 % 256
    let bad := w.toNat / 65536 ≠ 0 ∨ 0x0E ≤ op ∨
      ((op ≤ 0x04 ∨ op = 0x06 ∨ op = 0x07 ∨ (0x0B ≤ op ∧ op ≤ 0x0D)) ∧ imm ≠ 0) ∨
      (op = 0x05 ∧ imm / 4 ≠ 0)
    (bad → runCommand w s = .next { s with status := illegalStatus }) ∧
    (¬bad → ∃ i, decode w = .ok i ∧ runCommand w s = exec i s)

/-- R240, R243, R250: a step never refuses, and the only fault is a `BUSERR`; a command never
faults. The port, and a `BUSERR` as a fault of the machine, are the model's choice (assumption log 1,
3). -/
def Obligations.EveryCommandCompletesAndOnlyBusErrorsFault : Prop :=
  (∀ (i : Instr) (s : State), ∃ t, exec i s = .next t) ∧
  ∀ s : State, (∃ t, step s = .next t) ∨
    ∃ (a : BusAccess) (rest : List HostEvent) (cause : BusErrCause),
      s.port = .access a :: rest ∧ step s = .fault (.busErr cause)

/-- R62 to R65, R71, R243: an access is answered with `BUSERR` exactly when it is not a whole aligned
word access to a mapped register that admits it. The port and the fault are the model's choice
(assumption log 1, 3). -/
def Obligations.BusErrorExactlyWhenTheWindowRejects : Prop :=
  ∀ (s : State) (a : BusAccess) (rest : List HostEvent), s.port = .access a :: rest →
    (accessAccepted a → ∃ t, step s = .next t) ∧
    (¬accessAccepted a → ∃ cause, step s = .fault (.busErr cause))

/-- R69: interactions are served one at a time, in the order of the port; with none pending the state
stays as it is (R5). The port is the model's choice (assumption log 1). -/
def Obligations.PortServesInOrder : Prop :=
  (∀ s t : State, step s = .next t → t.port = s.port.tail) ∧
  ∀ s : State, s.port = [] → step s = .next s

/-- R65, R68: a read of a mapped register answers its word, and changes nothing of the block. The port
and the recorded answer are the model's choice (assumption log 1, 2). -/
def Obligations.ReadAnswersTheRegisterAndChangesNothing : Prop :=
  ∀ (s : State) (rest : List HostEvent) (r : Reg), s.port = hostRead r :: rest →
    step s = .next { s with port := rest, response := .data (readReg r s) }

/-- R41, R68: a write to a read-write register other than `CMD` stores the non-reserved bits; every
other register, and the receiver's accumulator, read as before. The port and the acknowledge are the
model's choice (assumption log 1, 2). -/
def Obligations.WriteStoresTheNonReservedBitsOnly : Prop :=
  ∀ (s : State) (rest : List HostEvent) (r : Reg) (v stored : Word),
    storedBits r = some stored → s.port = hostWrite r v :: rest →
    ∃ t, step s = .next t ∧ readReg r t = v &&& stored ∧
      (∀ r', r' ≠ r → readReg r' t = readReg r' s) ∧
      t.rxAcc = s.rxAcc ∧ t.port = rest ∧ t.response = .done

/-- R31, R67: a write to `AM_BUF(k)` replaces the cells of that word, any code accepted, and no other
cell. The port and the acknowledge are the model's choice (assumption log 1, 2). -/
def Obligations.BufferWriteReplacesTheCellsOfTheWord : Prop :=
  ∀ (s : State) (rest : List HostEvent) (k : Fin 4) (v : Word),
    s.port = hostWrite (.amBuf k) v :: rest →
    ∃ t, step s = .next t ∧ t = { s with am := t.am, port := rest, response := .done } ∧
      ∀ i < 61, amCell t.am i =
        if i / 16 = k.val then
          (match v.getLsbD (2 * (i % 16)), v.getLsbD (2 * (i % 16) + 1) with
            | false, false => .zero
            | true, false => .one
            | false, true => .mark
            | true, true => .unset)
        else amCell s.am i

/-- R24 to R27, R30, R34 to R38, R41: the fields of the registers sit where the rules' tables say, and
reserved bits read 0. -/
def Obligations.RegisterFieldsSitWhereTheTablesSay : Prop :=
  ∀ s : State,
    (let w := readReg .tvDate s
     w.extractLsb' 0 14 = s.tv.year ∧ w.extractLsb' 14 2 = 0 ∧ w.extractLsb' 16 9 = s.tv.days ∧
     w.extractLsb' 25 7 = 0) ∧
    (let w := readReg .tvTime s
     w.extractLsb' 0 5 = s.tv.hour ∧ w.extractLsb' 5 3 = 0 ∧ w.extractLsb' 8 6 = s.tv.minute ∧
     w.extractLsb' 14 2 = 0 ∧ w.extractLsb' 16 2 = s.tv.dst ∧ w.extractLsb' 18 6 = 0 ∧
     w.getLsbD 24 = s.tv.ls ∧ w.getLsbD 25 = s.tv.ly ∧ w.extractLsb' 26 6 = 0) ∧
    (let w := readReg .tvUt1 s
     w.extractLsb' 0 16 = s.tv.ut1 ∧ w.extractLsb' 16 16 = 0) ∧
    (let w := readReg .tvoDate s
     w.extractLsb' 0 14 = s.tvo.year ∧ w.extractLsb' 14 2 = 0 ∧ w.extractLsb' 16 9 = s.tvo.days ∧
     w.extractLsb' 25 7 = 0) ∧
    (let w := readReg .tvoTime s
     w.extractLsb' 0 5 = s.tvo.hour ∧ w.extractLsb' 5 3 = 0 ∧ w.extractLsb' 8 6 = s.tvo.minute ∧
     w.extractLsb' 14 2 = 0 ∧ w.extractLsb' 16 2 = s.tvo.dst ∧ w.extractLsb' 18 6 = 0 ∧
     w.getLsbD 24 = s.tvo.ls ∧ w.getLsbD 25 = s.tvo.ly ∧ w.extractLsb' 26 6 = 0) ∧
    (let w := readReg .tvoUt1 s
     w.extractLsb' 0 16 = s.tvo.ut1 ∧ w.extractLsb' 16 16 = 0) ∧
    (let w := readReg .dstNext s
     w.extractLsb' 0 6 = s.dstNext ∧ w.extractLsb' 6 26 = 0) ∧
    (let w := readReg .tcLen s
     w.extractLsb' 0 8 = s.tcLen ∧ w.extractLsb' 8 24 = 0) ∧
    (let w := readReg .status s
     w.getLsbD 0 = s.status.ok ∧ w.getLsbD 1 = s.status.illegal ∧ w.getLsbD 2 = s.status.badArg ∧
     w.getLsbD 3 = s.status.valid ∧ w.getLsbD 4 = s.status.emit ∧ w.extractLsb' 5 3 = 0 ∧
     w.getLsbD 8 = s.status.sticky ∧ w.extractLsb' 9 23 = 0) ∧
    (let w := readReg .rxStat s
     w.extractLsb' 0 3 = (match s.rxState with
       | .unsynced => 1#3 | .oneMark => 2#3 | .twoMarks => 3#3 | .inMinute => 4#3) ∧
     w.extractLsb' 3 5 = 0 ∧ w.extractLsb' 8 8 = BitVec.ofNat 8 s.rxAcc.length ∧
     w.extractLsb' 16 16 = 0) ∧
    readReg .opa s = s.opa ∧ readReg .res s = s.res ∧ readReg .id s = 0x57575642 ∧
    readReg .cmd s = 0

/-- R31 to R33, R67: cell 16w + j of a buffer reads at bits [2j+1 : 2j] of word w, in its code; bits
[31:26] of the last word read 0. -/
def Obligations.BufferCellsReadAtTheirBits : Prop :=
  ∀ (s : State) (k : Fin 4) (j : Nat), j < 16 →
    (16 * k.val + j < 61 →
      (readReg (.amBuf k) s).extractLsb' (2 * j) 2 =
        (match amCell s.am (16 * k.val + j) with
          | .zero => 0#2 | .one => 1#2 | .mark => 2#2 | .unset => 3#2) ∧
      (readReg (.pmBuf k) s).extractLsb' (2 * j) 2 =
        (match pmCell s.pm (16 * k.val + j) with
          | .zero => 0#2 | .one => 1#2 | .unset => 3#2)) ∧
    (61 ≤ 16 * k.val + j →
      (readReg (.amBuf k) s).extractLsb' (2 * j) 2 = 0 ∧
      (readReg (.pmBuf k) s).extractLsb' (2 * j) 2 = 0)

/-- R60, R61, R90: `BASE` is a multiple of 128; each register of the map of R61 stands at the offset
the map gives it and at no other, every other offset is unmapped, and a host address selects the offset
that is its distance from `BASE`. -/
def Obligations.HostAddressSelectsTheRegister : Prop :=
  let map : List (Nat × Reg) :=
    [(0x00, .id), (0x04, .cmd), (0x08, .status), (0x0C, .tcLen), (0x10, .tvDate), (0x14, .tvTime),
     (0x18, .tvUt1), (0x1C, .dstNext), (0x20, .opa), (0x24, .res), (0x28, .rxStat), (0x30, .tvoDate),
     (0x34, .tvoTime), (0x38, .tvoUt1), (0x40, .amBuf 0), (0x44, .amBuf 1), (0x48, .amBuf 2),
     (0x4C, .amBuf 3), (0x50, .pmBuf 0), (0x54, .pmBuf 1), (0x58, .pmBuf 2), (0x5C, .pmBuf 3)]
  Config.base % 128 = 0 ∧
  (∀ off r, regAt off = some r ↔ (off, r) ∈ map) ∧
  (∀ r : Reg, (regOffset r, r) ∈ map ∧ hostAddress r = Config.base + regOffset r) ∧
  (∀ (address : Nat) (off : BitVec 7),
    windowOffset address = some off ↔ address = Config.base + off.toNat) ∧
  ∀ r : Reg, ∃ off : BitVec 7, windowOffset (hostAddress r) = some off ∧ regAt off.toNat = some r ∧
    off.toNat % 4 = 0

/-- R91 `SETTV`: after its three writes `TV` is the time value given, and nothing else has changed.
The port and the acknowledge are the model's choice (assumption log 1, 2). -/
def Obligations.SetTvLoadsTheTimeValue : Prop :=
  ∀ (s : State) (rest : List HostEvent) (tv : TimeValue), s.port = setTvEvents tv ++ rest →
    Sys2Proof.core.run 3 s = .next { s with tv := tv, port := rest, response := .done }

/-- R91 `LDAM`: after its four writes cell i of `AM` is symbol i of the string, `UNSET` beyond its end,
and nothing else has changed. The port and the acknowledge are the model's choice (assumption log 1,
2). -/
def Obligations.LoadAmLoadsTheSymbols : Prop :=
  ∀ (s : State) (rest : List HostEvent) (symbols : List AmSym), symbols.length ≤ 61 →
    s.port = loadAmEvents symbols ++ rest →
    ∃ t : State, Sys2Proof.core.run 4 s = .next t ∧
      t = { s with am := t.am, port := rest, response := .done } ∧
      ∀ i < 61, amCell t.am i = symbols.getD i .unset

/-- R91 `FEEDS`: the host's sequence of `RX_FEED` writes runs the commands in the order of the symbols.
The port that holds the writes and the acknowledge are the model's own (assumption log 1, 2). -/
def Obligations.FeedsRunTheSymbolsInOrder : Prop :=
  ∀ (s : State) (rest : List HostEvent) (symbols : List AmSym) (t : State), symbols ≠ [] →
    s.port = feedEvents symbols ++ rest →
    feedAll symbols { s with port := rest, response := .done } = .next t →
    Sys2Proof.core.run symbols.length s = .next t

/-! ### Reset and control -/

/-- R270: a hardware reset sets every piece of state at once; the registers then read as the rule's
table says, and the cells and the receiver hold its last rows. What is still pending at the port, and the
answer, are the model's own (assumption log 1, 2). -/
def Obligations.HardwareResetSetsEveryValue : Prop :=
  ∀ (s : State) (rest : List HostEvent), s.port = .hardReset :: rest →
    ∃ t, step s = .next t ∧ t = { State.reset with port := rest, response := .done } ∧
      observable t =
        [0x57575642, 0, 0, 0, 0, 0, 0, 0, 0, 0, 0x00000001, 0, 0, 0,
          0xFFFFFFFF, 0xFFFFFFFF, 0xFFFFFFFF, 0x03FFFFFF,
          0xFFFFFFFF, 0xFFFFFFFF, 0xFFFFFFFF, 0x03FFFFFF] ∧
      (∀ i < 61, amCell t.am i = .unset ∧ pmCell t.pm i = .unset) ∧
      t.rxState = .unsynced ∧ t.rxAcc = []

/-- R231, R271: `SOFT_RESET` sets every piece of state to its reset value, but `STATUS` reads
0x00000001. That the port and the last answer stay as they are is the model's choice (assumption log
1, 2). -/
def Obligations.SoftResetIsResetWithOk : Prop :=
  ∀ s : State,
    exec .softReset s =
      .next { State.reset with
        status := succeeded Status.clear false false, port := s.port, response := s.response } ∧
    statusWord (succeeded Status.clear false false) = 0x00000001

/-- R230: `NOP` reports success and does nothing else; `STICKY` stays. -/
def Obligations.NopOnlyReportsSuccess : Prop :=
  ∀ s : State, exec .nop s = .next { s with status := succeeded s.status false false }

/-! ### `STATUS` and the errors -/

/-- R242: a command whose operands fail the check of the rule's table leaves `STATUS` = 0x00000104 and
changes nothing else; with legal operands it raises neither error. -/
def Obligations.BadArgExactlyWhenTheOperandsFail : Prop :=
  statusWord badArgStatus = 0x00000104 ∧
  ∀ (i : Instr) (s : State),
    (¬operandsLegal i s → exec i s = .next { s with status := badArgStatus }) ∧
    (operandsLegal i s → ∃ t, exec i s = .next t ∧ t.status.ok = true ∧ t.status.illegal = false ∧
      t.status.badArg = false)

/-- R34, R245, R248: after every command but `SOFT_RESET` exactly one of `OK` and `BADARG` is set,
`VALID` only by `DEC_AM` or `BCD_UNPACK`, `EMIT` only by `RX_FEED`, and `STICKY` is the old one or the
error. -/
def Obligations.EveryCommandUpdatesStatus : Prop :=
  ∀ (i : Instr) (s t : State), exec i s = .next t → i ≠ .softReset →
    t.status.illegal = false ∧ (t.status.ok = !t.status.badArg) ∧
    (t.status.valid = true → t.status.ok = true ∧ (i = .decAm ∨ ∃ n, i = .bcdUnpack n)) ∧
    (t.status.emit = true → t.status.ok = true ∧ ∃ sym, i = .rxFeed sym) ∧
    t.status.sticky = (s.status.sticky || t.status.badArg)

/-- R248: `STICKY`, once set, is cleared only by a hardware reset or a `SOFT_RESET`. The port
is the model's choice (assumption log 1). -/
def Obligations.StickyStaysUntilReset : Prop :=
  ∀ s t : State, step s = .next t → s.status.sticky = true → t.status.sticky = false →
    ∃ rest : List HostEvent, s.port = .hardReset :: rest ∨ s.port = hostCommand .softReset :: rest

/-- R248, R274: one read of `STICKY` at the end speaks for a whole run: where no reset stands among the
pending interactions and the run ends with `STICKY` = 0, no state on the way had recorded an error. The
port is the model's choice (assumption log 1). -/
def Obligations.StickyAtTheEndShowsTheWholeRun : Prop :=
  ∀ (k : Nat) (s t : State), Sys2Proof.core.run k s = .next t →
    (∀ e ∈ s.port, e ≠ .hardReset ∧ e ≠ hostCommand .softReset) → errorFree t →
    ∀ j ≤ k, ∃ u : State, Sys2Proof.core.run j s = .next u ∧ errorFree u

/-- R34, R245: an access that is not a `CMD` write leaves `STATUS` as it was. The port is the model's
choice (assumption log 1). -/
def Obligations.OnlyCommandsWriteStatus : Prop :=
  ∀ (s t : State) (a : BusAccess) (rest : List HostEvent), s.port = .access a :: rest →
    (a.op = .read ∨ a.offset ≠ 0x04#7) → step s = .next t → t.status = s.status

/-- R29, R30, R32, R36 to R38, R40, R284: which commands write which state. What a command outside a
list leaves is exactly as before; the input registers are written by `SOFT_RESET` alone. The port and
the last answer, which no command writes, are the model's own (assumption log 1, 2). -/
def Obligations.CommandsWriteOnlyTheirState : Prop :=
  ∀ (i : Instr) (s t : State), exec i s = .next t → i ≠ .softReset →
    t.tv = s.tv ∧ t.dstNext = s.dstNext ∧ t.opa = s.opa ∧ t.port = s.port ∧
    t.response = s.response ∧
    (t.res ≠ s.res → i = .hamming ∨ (∃ n, i = .lfsrRd n) ∨ (∃ n, i = .bcdPack n) ∨
      (∃ n, i = .bcdUnpack n) ∨ i = .moc ∨ i = .minlen) ∧
    (t.tvo ≠ s.tvo → i = .decAm ∧ t.status.valid = true) ∧
    (t.am ≠ s.am ∨ t.pm ≠ s.pm ∨ t.tcLen ≠ s.tcLen →
      i = .encAm ∨ i = .encPm ∨ i = .encTc ∨ ((∃ sym, i = .rxFeed sym) ∧ t.status.emit = true)) ∧
    (t.rxState ≠ s.rxState ∨ t.rxAcc ≠ s.rxAcc → (∃ sym, i = .rxFeed sym) ∨ i = .rxReset)

/-! ### Primitives -/

/-- R110 to R112: `HAMMING` sets bit j of `RES` to the exclusive or of the bits of `OPA` that row j
of R110's table lists, and clears the others; with a 1 in `OPA[31:26]` it is refused. -/
def Obligations.HammingComputesTheRowParities : Prop :=
  ∀ s : State,
    ((∃ k, 26 ≤ k ∧ s.opa.getLsbD k = true) →
      exec .hamming s = .next { s with status := badArgStatus }) ∧
    ((∀ k, 26 ≤ k → s.opa.getLsbD k = false) →
      ∃ t, exec .hamming s = .next t ∧
        t = { s with res := t.res, status := succeeded s.status false false } ∧
        (∀ j < 5, t.res.getLsbD j =
          decide ((([[23, 21, 20, 17, 16, 15, 14, 13, 9, 8, 6, 5, 4, 2, 0],
              [24, 22, 21, 18, 17, 16, 15, 14, 10, 9, 7, 6, 5, 3, 1],
              [25, 23, 22, 19, 18, 17, 16, 15, 11, 10, 8, 7, 6, 4, 2],
              [24, 21, 19, 18, 15, 14, 13, 12, 11, 7, 6, 4, 3, 2, 0],
              [25, 22, 20, 19, 16, 15, 14, 13, 12, 8, 7, 5, 4, 3, 1]] : List (List Nat)).getD j
            []).countP (fun i => s.opa.getLsbD i) % 2 = 1)) ∧
        ∀ j, 5 ≤ j → t.res.getLsbD j = false)

/-- From the column structure of R110: changing one bit of a 26-bit value changes its parity, and two
different single changes give two different parities. -/
def Obligations.HammingTellsSingleBitChangesApart : Prop :=
  ∀ v i j : Nat, v < 2 ^ 26 → i < 26 → j < 26 →
    hamming (v ^^^ 2 ^ i) ≠ hamming v ∧ (i ≠ j → hamming (v ^^^ 2 ^ i) ≠ hamming (v ^^^ 2 ^ j))

/-- R114: the stream starts with seven 1-bits and follows the recurrence; it has 255 bits. -/
def Obligations.LfsrFollowsTheRecurrence : Prop :=
  lfsrStream.length = 255 ∧ (∀ i < 7, lfsrBit i = true) ∧
  ∀ i < 255, 7 ≤ i →
    lfsrBit i = (lfsrBit (i - 7) ^^ lfsrBit (i - 6) ^^ lfsrBit (i - 5) ^^ lfsrBit (i - 2))

/-- R116: the stream repeats after 127 bits, and holds 129 ones (R115). -/
def Obligations.LfsrHasPeriod127 : Prop :=
  (∀ i < 128, lfsrBit i = lfsrBit (i + 127)) ∧ lfsrStream.count true = 129

/-- R86, R117: `LFSR_RD` puts the bit of the stream in `RES`; index 255 is refused. -/
def Obligations.LfsrReadGivesTheStreamBit : Prop :=
  ∀ (s : State) (index : Nat),
    (index ≤ 254 → exec (.lfsrRd index) s =
      .next { s with
        res := if lfsrBit index = true then 1 else 0
        status := succeeded s.status false false }) ∧
    (254 < index → exec (.lfsrRd index) s = .next { s with status := badArgStatus })

/-- R87, R100, R105: bit k of the result of `BCD_PACK` is bit k mod 4 of decimal digit k div 4 of
`OPA`, for k below N; the bits above are 0; a width outside 1..32 is refused. -/
def Obligations.BcdPackGivesTheDigits : Prop :=
  ∀ (s : State) (n : Nat),
    ((1 ≤ n ∧ n ≤ 32) → ∃ t, exec (.bcdPack n) s = .next t ∧
      t = { s with res := t.res, status := succeeded s.status false false } ∧
      ∀ k, t.res.getLsbD k =
        (decide (k < n) && (s.opa.toNat / 10 ^ (k / 4) % 10).testBit (k % 4))) ∧
    (¬(1 ≤ n ∧ n ≤ 32) → exec (.bcdPack n) s = .next { s with status := badArgStatus })

/-- R103, R106, R244: `BCD_UNPACK` sums the digits of the groups where none is above 9 and sets
`VALID`; with an invalid digit `RES` and `VALID` are 0 and there is no error; illegal operands are
refused. -/
def Obligations.BcdUnpackSumsTheDigits : Prop :=
  ∀ (s : State) (n : Nat),
    let group := fun j => s.opa.toNat / 2 ^ (4 * j) % 2 ^ min 4 (n - 4 * j)
    let legal := (1 ≤ n ∧ n ≤ 32) ∧ ∀ k, n ≤ k → s.opa.getLsbD k = false
    (legal → (∀ j < (n + 3) / 4, group j ≤ 9) →
      ∃ t, exec (.bcdUnpack n) s = .next t ∧
        t = { s with res := t.res, status := succeeded s.status true false } ∧
        t.res.toNat = ((List.range ((n + 3) / 4)).map fun j => group j * 10 ^ j).sum) ∧
    (legal → (∃ j < (n + 3) / 4, 9 < group j) →
      exec (.bcdUnpack n) s =
        .next { s with res := 0, status := succeeded s.status false false }) ∧
    (¬legal → exec (.bcdUnpack n) s = .next { s with status := badArgStatus })

/-- R103: unpacking is the inverse of packing: a number whose digits fit comes back, and a packed form
that unpacks is the packing of what it unpacks to. -/
def Obligations.BcdUnpackInvertsPack : Prop :=
  (∀ v n : Nat, v < 2 ^ (n % 4) * 10 ^ (n / 4) → bcdUnpack (bcdPack v n) n = some v) ∧
  ∀ b n v : Nat, b < 2 ^ n → bcdUnpack b n = some v → bcdPack v n = b

/-- R123, R124, R129: `MOC` puts the minute of century in `RES`: the days of the years since the
century began, by the Gregorian rule (R122), and the minutes of the day; an illegal `TV` is
refused. -/
def Obligations.MocCountsTheMinutes : Prop :=
  ∀ s : State,
    let y := s.tv.year.toNat
    let years := (List.range (y % 100)).map fun k =>
      if (y - y % 100 + k) % 4 = 0 ∧ ((y - y % 100 + k) % 100 ≠ 0 ∨ (y - y % 100 + k) % 400 = 0)
      then 366 else 365
    (legalTv s.tv → ∃ t, exec .moc s = .next t ∧
      t = { s with res := t.res, status := succeeded s.status false false } ∧
      t.res.toNat = (years.sum + s.tv.days.toNat - 1) * 1440 + s.tv.hour.toNat * 60
        + s.tv.minute.toNat) ∧
    (¬legalTv s.tv → exec .moc s = .next { s with status := badArgStatus })

/-- R123, R130: the minute of century of a legal time value fits the 26 bits of the PM field and of the
parity generator. The bound 36525 * 1440 that R123 derives holds where day 366 falls in a Gregorian leap
year; since `LY` is not checked against the year (I6), it fails for day 366 of 2099 (assumption log
12). -/
def Obligations.MinuteOfCenturyFits : Prop :=
  (∀ tv : TimeValue, legalTv tv → minuteOfCentury tv < 2 ^ 26) ∧
  (∀ tv : TimeValue, legalTv tv →
    (tv.days.toNat = 366 → tv.year.toNat % 4 = 0 ∧
      (tv.year.toNat % 100 ≠ 0 ∨ tv.year.toNat % 400 = 0)) →
    minuteOfCentury tv < 36525 * 1440) ∧
  ∃ tv : TimeValue, legalTv tv ∧ tv.year = 2099 ∧ 36525 * 1440 ≤ minuteOfCentury tv

/-- R120, R121, R125, R127: `MINLEN` gives 61 or 59 exactly in the last minute of a month's last UTC
day with the leap second flagged, by the sign of UT1, and 60 in every other minute; an illegal `TV` is
refused. The last clause says the lengths for both values of `POS_LEAP_WHEN_UT1_NONNEG` (D14); the
value the commands run with is the one R6 gives (assumption log 6). -/
def Obligations.MinlenGivesTheMinuteLength : Prop :=
  (∀ s : State,
    (legalTv s.tv → leapMinute s.tv → insertion s.tv →
      exec .minlen s = .next { s with res := 61, status := succeeded s.status false false }) ∧
    (legalTv s.tv → leapMinute s.tv → ¬insertion s.tv →
      exec .minlen s = .next { s with res := 59, status := succeeded s.status false false }) ∧
    (legalTv s.tv → ¬leapMinute s.tv →
      exec .minlen s = .next { s with res := 60, status := succeeded s.status false false }) ∧
    (¬legalTv s.tv → exec .minlen s = .next { s with status := badArgStatus })) ∧
  ∀ (whenNonneg : Bool) (tv : TimeValue),
    (leapMinute tv → insertionWhen whenNonneg tv → minuteLength whenNonneg tv = 61) ∧
    (leapMinute tv → ¬insertionWhen whenNonneg tv → minuteLength whenNonneg tv = 59) ∧
    (¬leapMinute tv → minuteLength whenNonneg tv = 60)

/-! ### The encoders -/

/-- R140 to R151, R153: `ENC_AM` writes every cell of `AM` as the rules place it, clears `PM`, sets
`TC_LEN`, and changes nothing else; an illegal `TV` is refused. -/
def Obligations.EncAmWritesEveryCell : Prop :=
  ∀ s : State,
    (legalTv s.tv → ∃ t, exec .encAm s = .next t ∧
      t = { s with
        am := t.am, pm := t.pm, tcLen := t.tcLen, status := succeeded s.status false false } ∧
      t.tcLen.toNat = lengthOf s.tv ∧
      (∀ i < 61, pmCell t.pm i = .unset) ∧
      (∀ i ∈ [0, 9, 19, 29, 39, 49], amCell t.am i = .mark) ∧
      amCell t.am 59 = (if 60 ≤ lengthOf s.tv then .mark else .unset) ∧
      amCell t.am 60 = (if lengthOf s.tv = 61 then .mark else .unset) ∧
      (∀ i ∈ [4, 10, 11, 14, 20, 21, 24, 34, 35, 44, 54], amCell t.am i = .zero) ∧
      fieldCarries t.am [1, 2, 3, 5, 6, 7, 8] s.tv.minute.toNat ∧
      fieldCarries t.am [12, 13, 15, 16, 17, 18] s.tv.hour.toNat ∧
      fieldCarries t.am [22, 23, 25, 26, 27, 28, 30, 31, 32, 33] s.tv.days.toNat ∧
      amCell t.am 36 = (if 0 ≤ s.tv.ut1.toInt then .one else .zero) ∧
      amCell t.am 37 = (if 0 ≤ s.tv.ut1.toInt then .zero else .one) ∧
      amCell t.am 38 = (if 0 ≤ s.tv.ut1.toInt then .one else .zero) ∧
      fieldCarries t.am [40, 41, 42, 43] (s.tv.ut1.toInt.natAbs / 100) ∧
      fieldCarries t.am [45, 46, 47, 48, 50, 51, 52, 53] (s.tv.year.toNat % 100) ∧
      amCell t.am 55 = (if s.tv.ly = true then .one else .zero) ∧
      amCell t.am 56 = (if s.tv.ls = true then .one else .zero) ∧
      fieldCarries t.am [57, 58] s.tv.dst.toNat) ∧
    (¬legalTv s.tv → exec .encAm s = .next { s with status := badArgStatus })

/-- R160 to R170, R178: in a regular minute `ENC_PM` writes the sync word, the parity, the minute of
century, the DST/leap code, the notice bit and the DST-next code where the rules place them, clears
`AM`, sets `TC_LEN`, and changes nothing else. The last clause says the leap-second code of R126 for
both values of `POS_LEAP_WHEN_UT1_NONNEG` (D14); the value the commands run with is the one R6 gives
(assumption log 6). -/
def Obligations.EncPmWritesTheRegularMinute : Prop :=
  (∀ s : State, legalTv s.tv →
    ¬((10 ≤ s.tv.minute.toNat ∧ s.tv.minute.toNat ≤ 15) ∨
      (40 ≤ s.tv.minute.toNat ∧ s.tv.minute.toNat ≤ 45)) →
    ∃ t, exec .encPm s = .next t ∧
      t = { s with
        am := t.am, pm := t.pm, tcLen := t.tcLen, status := succeeded s.status false false } ∧
      t.tcLen.toNat = lengthOf s.tv ∧
      (∀ i < 61, amCell t.am i = .unset) ∧
      pmCarries t.pm (List.range 13) 0x768 ∧
      pmCarries t.pm [13, 14, 15, 16, 17] (hamming (minuteOfCentury s.tv)) ∧
      pmCarries t.pm
        [18, 20, 21, 22, 23, 24, 25, 26, 27, 28, 30, 31, 32, 33, 34, 35, 36, 37, 38, 40, 41, 42, 43,
          44, 45, 46] (minuteOfCentury s.tv) ∧
      pmCell t.pm 19 = pmCell t.pm 46 ∧
      pmCell t.pm 29 = .zero ∧ pmCell t.pm 39 = .one ∧
      pmCarries t.pm [47, 48, 50, 51, 52]
        ([0b01000, 0b10101, 0b10110, 0b00011, 0b01000, 0b10101, 0b10110, 0b00011,
          0b00100, 0b01110, 0b10000, 0b01101, 0b11001, 0b11100, 0b11111, 0b11010].getD
          (s.tv.dst.toNat +
            4 * (if s.tv.ls = true then (if insertion s.tv then 2 else 3) else 0)) 0) ∧
      pmCell t.pm 49 = .one ∧
      pmCarries t.pm [53, 54, 55, 56, 57, 58] s.dstNext.toNat ∧
      pmCell t.pm 59 = (if 60 ≤ lengthOf s.tv then .zero else .unset) ∧
      pmCell t.pm 60 = (if lengthOf s.tv = 61 then .zero else .unset)) ∧
  ∀ (whenNonneg : Bool) (tv : TimeValue),
    leapSecCode whenNonneg tv =
      if tv.ls = true then (if insertionWhen whenNonneg tv then 2 else 3) else 0

/-- R161, R171 to R176, R178: in an extended minute `ENC_PM` writes the 60-bit window of the 360-bit
sequence that the minute and the seqno select, for every value of `FTW`; the minute has 60 cells. -/
def Obligations.EncPmWritesTheExtendedWindow : Prop :=
  ∀ s : State, legalTv s.tv →
    ((10 ≤ s.tv.minute.toNat ∧ s.tv.minute.toNat ≤ 15) ∨
      (40 ≤ s.tv.minute.toNat ∧ s.tv.minute.toNat ≤ 45)) →
    ∃ t, exec .encPm s = .next t ∧
      t = { s with
        am := t.am, pm := t.pm, tcLen := 60, status := succeeded s.status false false } ∧
      (∀ i < 61, amCell t.am i = .unset) ∧
      (∀ i < 60, pmCell t.pm i =
        if frameBit (seqno s.tv) (60 * (s.tv.minute.toNat % 10) + i) = true then .one else .zero) ∧
      pmCell t.pm 60 = .unset

/-- R172: the seqno of a time value, by its half hour, DST code and hour. -/
def Obligations.SeqnoFollowsTheTable : Prop :=
  ∀ tv : TimeValue, tv.minute.toNat ≤ 59 →
    let s := if 30 ≤ tv.minute.toNat then 2 else 0
    (tv.dst = 0 → seqno tv = s) ∧
    (tv.dst = 3 → seqno tv = s + 1) ∧
    (tv.dst = 2 → tv.hour.toNat < 4 → seqno tv = s) ∧
    (tv.dst = 2 → 4 ≤ tv.hour.toNat → tv.hour.toNat < 11 → seqno tv = s + 90) ∧
    (tv.dst = 2 → 11 ≤ tv.hour.toNat → seqno tv = s + 1) ∧
    (tv.dst = 1 → tv.hour.toNat < 4 → seqno tv = s + 1) ∧
    (tv.dst = 1 → 4 ≤ tv.hour.toNat → tv.hour.toNat < 11 → seqno tv = s + 91) ∧
    (tv.dst = 1 → 11 ≤ tv.hour.toNat → seqno tv = s)

/-- R177: `ENC_TC` leaves in `AM` what `ENC_AM` leaves there and in `PM` what `ENC_PM` leaves there,
with the length both give; an illegal `TV` is refused with nothing written but `STATUS`. -/
def Obligations.EncTcIsBothChannels : Prop :=
  ∀ s : State,
    (legalTv s.tv → ∃ a p t, exec .encAm s = .next a ∧ exec .encPm s = .next p ∧
      exec .encTc s = .next t ∧ a.tcLen = p.tcLen ∧
      t = { s with
        am := a.am, pm := p.pm, tcLen := a.tcLen, status := succeeded s.status false false }) ∧
    (¬legalTv s.tv → exec .encTc s = .next { s with status := badArgStatus })

/-- R160, R242: `ENC_PM` with an illegal `TV` is refused with nothing written but `STATUS`. -/
def Obligations.EncPmRefusesAnIllegalTimeValue : Prop :=
  ∀ s : State, ¬legalTv s.tv → exec .encPm s = .next { s with status := badArgStatus }

/-! ### The decoder -/

/-- R190 to R200: `DEC_AM` writes `TVO` and sets `VALID` exactly for the minutes the checks of R192 to
R197 pass, with the fields by the weights of their positions; otherwise it writes only `STATUS`. -/
def Obligations.DecAmDecodesExactlyTheValidMinutes : Prop :=
  ∀ s : State,
    (decodable s.am → exec .decAm s =
      .next { s with tvo := valueIn s.am, status := succeeded s.status true false }) ∧
    (¬decodable s.am → exec .decAm s =
      .next { s with status := succeeded s.status false false })

/-- R202: encoding a legal time value of 60 or 61 seconds and decoding the result gives it back, but
for UT1, truncated toward zero to tenths, and the year, brought into the epoch window; the two agree
field for field exactly when neither correction applies. A 59-second minute does not decode. -/
def Obligations.EncodedMinuteDecodesBack : Prop :=
  ∀ s : State, legalTv s.tv → ∃ t, exec .encAm s = .next t ∧
    (60 ≤ lengthOf s.tv → ∃ u, exec .decAm t = .next u ∧ u.status.valid = true ∧
      u.tvo = { s.tv with
        year := BitVec.ofNat 14 (fullYear Config.epoch (s.tv.year.toNat % 100))
        ut1 := BitVec.ofInt 16 (s.tv.ut1.toInt.tdiv 100 * 100) } ∧
      (u.tvo = s.tv ↔
        s.tv.ut1.toInt % 100 = 0 ∧ 1970 ≤ s.tv.year.toNat ∧ s.tv.year.toNat ≤ 2069)) ∧
    (lengthOf s.tv = 59 → ∃ u, exec .decAm t = .next u ∧ u.status.valid = false ∧ u.tvo = s.tvo)

/-! ### The receiver -/

/-- R212 to R222: `RX_FEED` moves the receiver as the transition rules say, and emits exactly when
position 59 completes a skeleton; nothing else changes, and `UNSET` is refused. -/
def Obligations.RxFeedFollowsTheTransitions : Prop :=
  ∀ (s : State) (v : AmSym),
    let idx := s.rxAcc.length
    let go := fun (st : RxState) (acc : List AmSym) =>
      exec (.rxFeed v) s = .next { s with
        rxState := st, rxAcc := acc, status := succeeded s.status false false }
    let expected := idx ∈ [0, 9, 19, 29, 39, 49, 59]
    let fixedZero := idx ∈ [4, 10, 11, 14, 20, 21, 24, 34, 35, 44, 54]
    (v = .unset → exec (.rxFeed v) s = .next { s with status := badArgStatus }) ∧
    (v ≠ .unset →
      (s.rxState = .unsynced → v = .mark → go .oneMark s.rxAcc) ∧
      (s.rxState = .unsynced → v ≠ .mark → go .unsynced s.rxAcc) ∧
      (s.rxState = .oneMark → v = .mark → go .twoMarks s.rxAcc) ∧
      (s.rxState = .oneMark → v ≠ .mark → go .unsynced s.rxAcc) ∧
      (s.rxState = .twoMarks → v = .mark → go .twoMarks s.rxAcc) ∧
      (s.rxState = .twoMarks → v ≠ .mark → go .inMinute [.mark, v]) ∧
      (s.rxState = .inMinute → ¬expected → v = .mark → s.rxAcc.getLast? = some .mark →
        go .twoMarks []) ∧
      (s.rxState = .inMinute → ¬expected → v = .mark → s.rxAcc.getLast? ≠ some .mark →
        go .oneMark []) ∧
      (s.rxState = .inMinute → expected → v ≠ .mark → go .unsynced []) ∧
      (s.rxState = .inMinute → fixedZero → v = .one → go .unsynced []) ∧
      (s.rxState = .inMinute → expected → idx ≠ 59 → v = .mark →
        go .inMinute (s.rxAcc ++ [v])) ∧
      (s.rxState = .inMinute → ¬expected → (fixedZero → v = .zero) → v ≠ .mark →
        go .inMinute (s.rxAcc ++ [v])) ∧
      (s.rxState = .inMinute → idx = 59 → v = .mark →
        ∃ t, exec (.rxFeed v) s = .next t ∧
          t = { s with
            rxState := .oneMark, rxAcc := [], am := t.am, pm := t.pm, tcLen := 60,
            status := succeeded s.status false true } ∧
          (∀ i < 60, amCell t.am i = (s.rxAcc ++ [v]).getD i .unset) ∧
          amCell t.am 60 = .unset ∧ ∀ i < 61, pmCell t.pm i = .unset))

/-- R220, R272: `RX_RESET` returns the receiver to state 1 with an empty accumulator, and changes
nothing else but `STATUS`. -/
def Obligations.RxResetResetsTheReceiverOnly : Prop :=
  ∀ s : State, exec .rxReset s =
    .next { s with
      rxState := .unsynced, rxAcc := [], status := succeeded s.status false false }

/-- R223, no emission without a skeleton: from a receiver state that a run can reach, a minute is
emitted only with `MARK` at every mark position, `ZERO` at every fixed zero, and data elsewhere. -/
def Obligations.EmittedMinuteHasTheSkeleton : Prop :=
  ∀ (s t : State) (v : AmSym), receiverInv s → exec (.rxFeed v) s = .next t →
    t.status.emit = true → skeletonHolds (sentMinute t.am) ∧ t.tcLen = 60

/-- R223, progress: from EVERY state of the block, feeding a `MARK` and then the 60 symbols of a minute
with a valid skeleton emits that minute on the last symbol, and nothing between the `MARK` and it. What
a receiver state that no run reaches does with the `MARK` is the model's choice (assumption log 8). -/
def Obligations.ReceiverLocksOnFromEveryState : Prop :=
  ∀ (s : State) (minute : List AmSym), minute.length = 60 → skeletonHolds minute →
    (∀ k, 1 ≤ k → k < 60 → ∃ u, feedAll (.mark :: minute.take k) s = .next u ∧
      u.status.emit = false ∧ (k = 1 → u.rxState = .twoMarks) ∧
      (2 ≤ k → u.rxState = .inMinute ∧ u.rxAcc = minute.take k)) ∧
    ∃ t, feedAll (.mark :: minute) s = .next t ∧ t.status.emit = true ∧ t.rxState = .oneMark ∧
      t.rxAcc = [] ∧ t.tcLen = 60 ∧ sentMinute t.am = minute ∧ amCell t.am 60 = .unset

/-- R153, R202, R223: whatever state the receiver is in, feeding it a `MARK` and the minute that the
AM encoder makes of a legal time value of 60 or 61 seconds, then decoding, gives the time value back
with the two corrections of R202. What a receiver state that no run reaches does with the `MARK` is the
model's choice (assumption log 8). -/
def Obligations.TransmittedMinuteIsReceivedAndDecoded : Prop :=
  ∀ (s : State) (tv : TimeValue), legalTv tv → 60 ≤ lengthOf tv →
    ∃ t u, feedAll (.mark :: sentMinute (amEncode tv (lengthOf tv))) s = .next t ∧
      t.status.emit = true ∧ exec .decAm t = .next u ∧ u.status.valid = true ∧
      u.tvo = { tv with
        year := BitVec.ofNat 14 (fullYear Config.epoch (tv.year.toNat % 100))
        ut1 := BitVec.ofInt 16 (tv.ut1.toInt.tdiv 100 * 100) }

/-! ### The invariant -/

/-- R270: the reset state meets the invariant and the launch premises of R274. -/
def Obligations.ResetMeetsTheInvariant : Prop :=
  Inv State.reset ∧ cleanEntry State.reset ∧ errorFree State.reset

/-- R30, R32, R36, R39, R199, R211, R240, R248: every step keeps the invariant, from every state that
meets it. -/
def Obligations.StepKeepsTheInvariant : Prop :=
  ∀ s t : State, Inv s → step s = .next t → Inv t

/-! ### Runs -/

/-- R68, R241: serving a whole-word write to `CMD` of a word that meets one of the rule's conditions
leaves `STATUS` = 0x00000102 and everything else of the block as it was. The port and the acknowledge
are the model's choice (assumption log 1, 2). -/
def Obligations.StepOfAnIllegalWordChangesStatusOnly : Prop :=
  statusWord illegalStatus = 0x00000102 ∧
  ∀ (s : State) (rest : List HostEvent) (w : Word),
    s.port = .access { op := .write w, offset := 0x04#7, width := 32, enables := 0b1111#4 } :: rest →
    let op := w.toNat % 256
    let imm := w.toNat / 256 % 256
    (w.toNat / 65536 ≠ 0 ∨ 0x0E ≤ op ∨
      ((op ≤ 0x04 ∨ op = 0x06 ∨ op = 0x07 ∨ (0x0B ≤ op ∧ op ≤ 0x0D)) ∧ imm ≠ 0) ∨
      (op = 0x05 ∧ imm / 4 ≠ 0)) →
    step s = .next { s with status := illegalStatus, port := rest, response := .done }

/-- R69, R275: a run of as many steps as there are interactions at the head of the port serves them in
their order, each seeing what all earlier ones did, and leaves what stands behind them pending. The port
and the answers are the model's choice (assumption log 1, 2). -/
def Obligations.RunServesTheAccessesInOrder : Prop :=
  ∀ (s : State) (events rest : List HostEvent), s.port = events ++ rest →
    Sys2Proof.core.run events.length s = serveAll events { s with port := rest }

/-- R274: a state that meets the launch premise `clean_entry`, by either of its alternatives, meets the
invariant. -/
def Obligations.CleanEntryMeetsTheInvariant : Prop :=
  ∀ s : State, cleanEntry s → Inv s

/-- R274, R275: a run from a clean entry that answers a next state and ends with `STICKY` = 0 ends in a
state that a later run may take as its own clean entry. The port is the model's choice (assumption log
1). -/
def Obligations.ErrorFreeRunEndsInACleanEntry : Prop :=
  ∀ (k : Nat) (s t : State), cleanEntry s → Sys2Proof.core.run k s = .next t → errorFree t →
    cleanEntry t
end

