-- ==== Sys2Proof/Laws/State.lean ====
section
/-! SUPPORT. One lemma per field per state update of the machine, each true by rfl. -/

namespace Sys2Proof.Machine

/-! ### `complete` -/

@[simp] theorem complete_status (s : State) (v m : Bool) :
    (complete s v m).status = statusAfter s.status none v m := rfl

@[simp] theorem complete_tcLen (s : State) (v m : Bool) :
    (complete s v m).tcLen = s.tcLen := rfl

@[simp] theorem complete_tv (s : State) (v m : Bool) :
    (complete s v m).tv = s.tv := rfl

@[simp] theorem complete_dstNext (s : State) (v m : Bool) :
    (complete s v m).dstNext = s.dstNext := rfl

@[simp] theorem complete_opa (s : State) (v m : Bool) :
    (complete s v m).opa = s.opa := rfl

@[simp] theorem complete_res (s : State) (v m : Bool) :
    (complete s v m).res = s.res := rfl

@[simp] theorem complete_tvo (s : State) (v m : Bool) :
    (complete s v m).tvo = s.tvo := rfl

@[simp] theorem complete_am (s : State) (v m : Bool) :
    (complete s v m).am = s.am := rfl

@[simp] theorem complete_pm (s : State) (v m : Bool) :
    (complete s v m).pm = s.pm := rfl

@[simp] theorem complete_rxState (s : State) (v m : Bool) :
    (complete s v m).rxState = s.rxState := rfl

@[simp] theorem complete_rxAcc (s : State) (v m : Bool) :
    (complete s v m).rxAcc = s.rxAcc := rfl

@[simp] theorem complete_port (s : State) (v m : Bool) :
    (complete s v m).port = s.port := rfl

@[simp] theorem complete_response (s : State) (v m : Bool) :
    (complete s v m).response = s.response := rfl

/-! ### `raiseError` -/

@[simp] theorem raiseError_status (e : ErrorKind) (s : State) :
    (raiseError e s).status = statusAfter s.status (some e) false false := rfl

@[simp] theorem raiseError_tcLen (e : ErrorKind) (s : State) :
    (raiseError e s).tcLen = s.tcLen := rfl

@[simp] theorem raiseError_tv (e : ErrorKind) (s : State) :
    (raiseError e s).tv = s.tv := rfl

@[simp] theorem raiseError_dstNext (e : ErrorKind) (s : State) :
    (raiseError e s).dstNext = s.dstNext := rfl

@[simp] theorem raiseError_opa (e : ErrorKind) (s : State) :
    (raiseError e s).opa = s.opa := rfl

@[simp] theorem raiseError_res (e : ErrorKind) (s : State) :
    (raiseError e s).res = s.res := rfl

@[simp] theorem raiseError_tvo (e : ErrorKind) (s : State) :
    (raiseError e s).tvo = s.tvo := rfl

@[simp] theorem raiseError_am (e : ErrorKind) (s : State) :
    (raiseError e s).am = s.am := rfl

@[simp] theorem raiseError_pm (e : ErrorKind) (s : State) :
    (raiseError e s).pm = s.pm := rfl

@[simp] theorem raiseError_rxState (e : ErrorKind) (s : State) :
    (raiseError e s).rxState = s.rxState := rfl

@[simp] theorem raiseError_rxAcc (e : ErrorKind) (s : State) :
    (raiseError e s).rxAcc = s.rxAcc := rfl

@[simp] theorem raiseError_port (e : ErrorKind) (s : State) :
    (raiseError e s).port = s.port := rfl

@[simp] theorem raiseError_response (e : ErrorKind) (s : State) :
    (raiseError e s).response = s.response := rfl

/-! ### `takeFromPort` -/

@[simp] theorem takeFromPort_status (rest : List HostEvent) (s : State) :
    (takeFromPort rest s).status = s.status := rfl

@[simp] theorem takeFromPort_tcLen (rest : List HostEvent) (s : State) :
    (takeFromPort rest s).tcLen = s.tcLen := rfl

@[simp] theorem takeFromPort_tv (rest : List HostEvent) (s : State) :
    (takeFromPort rest s).tv = s.tv := rfl

@[simp] theorem takeFromPort_dstNext (rest : List HostEvent) (s : State) :
    (takeFromPort rest s).dstNext = s.dstNext := rfl

@[simp] theorem takeFromPort_opa (rest : List HostEvent) (s : State) :
    (takeFromPort rest s).opa = s.opa := rfl

@[simp] theorem takeFromPort_res (rest : List HostEvent) (s : State) :
    (takeFromPort rest s).res = s.res := rfl

@[simp] theorem takeFromPort_tvo (rest : List HostEvent) (s : State) :
    (takeFromPort rest s).tvo = s.tvo := rfl

@[simp] theorem takeFromPort_am (rest : List HostEvent) (s : State) :
    (takeFromPort rest s).am = s.am := rfl

@[simp] theorem takeFromPort_pm (rest : List HostEvent) (s : State) :
    (takeFromPort rest s).pm = s.pm := rfl

@[simp] theorem takeFromPort_rxState (rest : List HostEvent) (s : State) :
    (takeFromPort rest s).rxState = s.rxState := rfl

@[simp] theorem takeFromPort_rxAcc (rest : List HostEvent) (s : State) :
    (takeFromPort rest s).rxAcc = s.rxAcc := rfl

@[simp] theorem takeFromPort_port (rest : List HostEvent) (s : State) :
    (takeFromPort rest s).port = rest := rfl

@[simp] theorem takeFromPort_response (rest : List HostEvent) (s : State) :
    (takeFromPort rest s).response = .done := rfl

/-! ### `commandPending` -/

@[simp] theorem commandPending_status (w : Word) (s : State) :
    (commandPending w s).status = s.status := rfl

@[simp] theorem commandPending_tcLen (w : Word) (s : State) :
    (commandPending w s).tcLen = s.tcLen := rfl

@[simp] theorem commandPending_tv (w : Word) (s : State) :
    (commandPending w s).tv = s.tv := rfl

@[simp] theorem commandPending_dstNext (w : Word) (s : State) :
    (commandPending w s).dstNext = s.dstNext := rfl

@[simp] theorem commandPending_opa (w : Word) (s : State) :
    (commandPending w s).opa = s.opa := rfl

@[simp] theorem commandPending_res (w : Word) (s : State) :
    (commandPending w s).res = s.res := rfl

@[simp] theorem commandPending_tvo (w : Word) (s : State) :
    (commandPending w s).tvo = s.tvo := rfl

@[simp] theorem commandPending_am (w : Word) (s : State) :
    (commandPending w s).am = s.am := rfl

@[simp] theorem commandPending_pm (w : Word) (s : State) :
    (commandPending w s).pm = s.pm := rfl

@[simp] theorem commandPending_rxState (w : Word) (s : State) :
    (commandPending w s).rxState = s.rxState := rfl

@[simp] theorem commandPending_rxAcc (w : Word) (s : State) :
    (commandPending w s).rxAcc = s.rxAcc := rfl

@[simp] theorem commandPending_port (w : Word) (s : State) :
    (commandPending w s).port = hostWrite .cmd w :: s.port := rfl

@[simp] theorem commandPending_response (w : Word) (s : State) :
    (commandPending w s).response = s.response := rfl

/-! ### `emitMinute` -/

@[simp] theorem emitMinute_status (minute : List AmSym) (s : State) :
    (emitMinute minute s).status = s.status := rfl

@[simp] theorem emitMinute_tcLen (minute : List AmSym) (s : State) :
    (emitMinute minute s).tcLen = 60 := rfl

@[simp] theorem emitMinute_tv (minute : List AmSym) (s : State) :
    (emitMinute minute s).tv = s.tv := rfl

@[simp] theorem emitMinute_dstNext (minute : List AmSym) (s : State) :
    (emitMinute minute s).dstNext = s.dstNext := rfl

@[simp] theorem emitMinute_opa (minute : List AmSym) (s : State) :
    (emitMinute minute s).opa = s.opa := rfl

@[simp] theorem emitMinute_res (minute : List AmSym) (s : State) :
    (emitMinute minute s).res = s.res := rfl

@[simp] theorem emitMinute_tvo (minute : List AmSym) (s : State) :
    (emitMinute minute s).tvo = s.tvo := rfl

@[simp] theorem emitMinute_am (minute : List AmSym) (s : State) :
    (emitMinute minute s).am = emittedAm minute := rfl

@[simp] theorem emitMinute_pm (minute : List AmSym) (s : State) :
    (emitMinute minute s).pm = clearPm := rfl

@[simp] theorem emitMinute_rxState (minute : List AmSym) (s : State) :
    (emitMinute minute s).rxState = s.rxState := rfl

@[simp] theorem emitMinute_rxAcc (minute : List AmSym) (s : State) :
    (emitMinute minute s).rxAcc = s.rxAcc := rfl

@[simp] theorem emitMinute_port (minute : List AmSym) (s : State) :
    (emitMinute minute s).port = s.port := rfl

@[simp] theorem emitMinute_response (minute : List AmSym) (s : State) :
    (emitMinute minute s).response = s.response := rfl

/-! ### `resetBlock` -/

@[simp] theorem resetBlock_status (s : State) : (resetBlock s).status = State.reset.status := rfl

@[simp] theorem resetBlock_tcLen (s : State) : (resetBlock s).tcLen = State.reset.tcLen := rfl

@[simp] theorem resetBlock_tv (s : State) : (resetBlock s).tv = State.reset.tv := rfl

@[simp] theorem resetBlock_dstNext (s : State) : (resetBlock s).dstNext = State.reset.dstNext := rfl

@[simp] theorem resetBlock_opa (s : State) : (resetBlock s).opa = State.reset.opa := rfl

@[simp] theorem resetBlock_res (s : State) : (resetBlock s).res = State.reset.res := rfl

@[simp] theorem resetBlock_tvo (s : State) : (resetBlock s).tvo = State.reset.tvo := rfl

@[simp] theorem resetBlock_am (s : State) : (resetBlock s).am = State.reset.am := rfl

@[simp] theorem resetBlock_pm (s : State) : (resetBlock s).pm = State.reset.pm := rfl

@[simp] theorem resetBlock_rxState (s : State) : (resetBlock s).rxState = State.reset.rxState := rfl

@[simp] theorem resetBlock_rxAcc (s : State) : (resetBlock s).rxAcc = State.reset.rxAcc := rfl

@[simp] theorem resetBlock_port (s : State) : (resetBlock s).port = s.port := rfl

@[simp] theorem resetBlock_response (s : State) : (resetBlock s).response = s.response := rfl

end Sys2Proof.Machine
end

