-- ==== Sys2Proof/Laws/Ops.lean ====
section
/-! SUPPORT. What the shared operations can do, said once: the numbers built from bits, the field
reads, the cell writes and the two ways a checked command ends. -/

namespace Sys2Proof.Machine

/-! ### Ending a command -/

/-- A checked command answers its effect where the check holds and `BADARG` where it fails, and
nothing else. -/
theorem checked_cases {legal : Bool} {s effect t : State}
    (h : checked legal s effect = .next t) :
    (legal = true ∧ t = effect) ∨ (legal = false ∧ t = raiseError .badArg s) := by
  cases legal
  · exact .inr ⟨rfl, by simpa [checked] using h.symm⟩
  · exact .inl ⟨rfl, by simpa [checked] using h.symm⟩

theorem checked_completes (legal : Bool) (s effect : State) :
    ∃ t, checked legal s effect = .next t := by
  cases legal
  · exact ⟨_, rfl⟩
  · exact ⟨_, rfl⟩

theorem checked_of_legal {legal : Bool} (h : legal = true) (s effect : State) :
    checked legal s effect = .next effect := by
  simp [checked, h]

theorem checked_of_illegal {legal : Bool} (h : legal = false) (s effect : State) :
    checked legal s effect = .next (raiseError .badArg s) := by
  simp [checked, h]

/-! ### Bits -/

theorem bitsToNat_lt (f : Nat → Bool) (n : Nat) : bitsToNat f n < 2 ^ n := by
  induction n with
  | zero => simp [bitsToNat]
  | succ n ih =>
    have hb : (f n).toNat ≤ 1 := Bool.toNat_le (f n)
    have : (f n).toNat * 2 ^ n ≤ 1 * 2 ^ n := Nat.mul_le_mul_right _ hb
    rw [bitsToNat, Nat.pow_succ]
    omega

/-- Bit `k` of the number built from `f` is `f k` below the width, and 0 above it. -/
theorem testBit_bitsToNat (f : Nat → Bool) (n k : Nat) :
    (bitsToNat f n).testBit k = (decide (k < n) && f k) := by
  induction n with
  | zero => simp [bitsToNat]
  | succ n ih =>
    have hlt := bitsToNat_lt f n
    have hor : bitsToNat f (n + 1) = (f n).toNat <<< n ||| bitsToNat f n := by
      rw [bitsToNat, Nat.shiftLeft_eq, Nat.add_comm, ← Nat.shiftLeft_eq,
        Nat.shiftLeft_add_eq_or_of_lt hlt]
    rw [hor, Nat.testBit_or, ih, Nat.testBit_shiftLeft]
    rcases Nat.lt_trichotomy k n with hk | hk | hk
    · have : ¬k ≥ n := by omega
      simp [this, hk, Nat.lt_succ_of_lt hk]
    · subst hk
      cases f k <;> simp
    · have h1 : ¬k < n := by omega
      have h2 : ¬k < n + 1 := by omega
      have h3 : k - n = (k - n - 1) + 1 := by omega
      rw [h3]
      cases f n <;> simp [h1, h2, Nat.testBit_succ]

/-- A field of a word, by its bits. -/
theorem testBit_bitField (w : Word) (lo len k : Nat) :
    (bitField w lo len).testBit k = (decide (k < len) && w.getLsbD (lo + k)) := by
  rw [bitField, Nat.testBit_mod_two_pow, Nat.testBit_div_two_pow, Nat.add_comm]
  rfl

theorem bitField_lt (w : Word) (lo len : Nat) : bitField w lo len < 2 ^ len :=
  Nat.mod_lt _ (Nat.two_pow_pos len)

/-! ### Cells -/

@[simp] theorem amCell_clearAm (i : Nat) : amCell clearAm i = .unset := by
  simp only [amCell, clearAm, Vector.getElem?_replicate]
  split <;> rfl

@[simp] theorem pmCell_clearPm (i : Nat) : pmCell clearPm i = .unset := by
  simp only [pmCell, clearPm, Vector.getElem?_replicate]
  split <;> rfl

theorem writeCells_nil {α : Type} (buf : Vector α 61) : writeCells buf [] = buf := rfl

theorem writeCells_append {α : Type} (buf : Vector α 61) (ws ws' : List (Nat × α)) :
    writeCells buf (ws ++ ws') = writeCells (writeCells buf ws) ws' := by
  simp [writeCells]

/-- After a sequence of writes a cell holds the last value written to it, or what it held. -/
theorem writeCells_getElem? {α : Type} (buf : Vector α 61) (ws : List (Nat × α)) (i : Nat)
    (hi : i < 61) :
    (writeCells buf ws)[i]? =
      some (match ws.reverse.find? (fun w => w.1 == i) with | some w => w.2 | none => buf[i]) := by
  induction ws using List.reverseRecOn with
  | nil => simp [writeCells, hi]
  | append_singleton ws w ih =>
    rw [writeCells_append, List.reverse_append]
    by_cases hw : w.1 = i
    · subst hw
      simp [writeCells, hi]
    · have : (w.1 == i) = false := by simpa using hw
      simp only [List.reverse_singleton, List.singleton_append, List.find?_cons, this]
      rw [← ih]
      simp [writeCells, hw]

/-- The AM form of `writeCells_getElem?`. -/
theorem amCell_writeCells (buf : AmBuf) (ws : List (Nat × AmSym)) (i : Nat) (hi : i < 61) :
    amCell (writeCells buf ws) i =
      (match ws.reverse.find? (fun w => w.1 == i) with | some w => w.2 | none => amCell buf i) := by
  rw [amCell, writeCells_getElem? buf ws i hi]
  cases ws.reverse.find? (fun w => w.1 == i) <;> simp [amCell, hi]

/-- The PM form of `writeCells_getElem?`. -/
theorem pmCell_writeCells (buf : PmBuf) (ws : List (Nat × PmSym)) (i : Nat) (hi : i < 61) :
    pmCell (writeCells buf ws) i =
      (match ws.reverse.find? (fun w => w.1 == i) with | some w => w.2 | none => pmCell buf i) := by
  rw [pmCell, writeCells_getElem? buf ws i hi]
  cases ws.reverse.find? (fun w => w.1 == i) <;> simp [pmCell, hi]

end Sys2Proof.Machine
end

