-- ==== Sys2Proof/Laws/Bus.lean ====
section
/-! SUPPORT. What serving one host interaction can do, said once. -/

namespace Sys2Proof.Machine

/-- An accepted access is a whole aligned word access to a mapped register, and a write only to a
writable one. -/
theorem acceptAccess_ok {a : BusAccess} {r : Reg} (h : acceptAccess a = .ok r) :
    wholeWord a = true ∧ a.offset.toNat % 4 = 0 ∧ regAt a.offset.toNat = some r ∧
      rightsError a.op r = none := by
  unfold acceptAccess at h
  split at h
  · cases h
  · rename_i hw
    split at h
    · cases h
    · rename_i h4
      split at h
      · cases h
      · rename_i r' hr
        split at h
        · cases h
        · rename_i hn
          cases h
          exact ⟨by simpa using hw, by simpa using h4, hr, hn⟩

/-- Serving an access that does not fault is a read of an accepted register, or a write to one. -/
theorem serveAccess_next {a : BusAccess} {s t : State} (h : serveAccess a s = .next t) :
    ∃ r, acceptAccess a = .ok r ∧
      ((a.op = .read ∧ t = { s with response := .data (readReg r s) }) ∨
        ∃ v, a.op = .write v ∧ writeReg r v s = .next t) := by
  unfold serveAccess at h
  split at h
  · cases h
  · rename_i r hr
    refine ⟨r, hr, ?_⟩
    split at h
    · rename_i hop
      cases h
      exact .inl ⟨hop, rfl⟩
    · rename_i v hop
      exact .inr ⟨v, hop, h⟩
    · cases h

/-- A write that does not fault runs a command, or stores into one register's own field. -/
theorem writeReg_next {r : Reg} {v : Word} {s t : State} (h : writeReg r v s = .next t) :
    (r = .cmd ∧ runCommand v s = .next t) ∨
      (r = .tvDate ∧ t = { s with tv := setDate s.tv v }) ∨
      (r = .tvTime ∧ t = { s with tv := setTime s.tv v }) ∨
      (r = .tvUt1 ∧ t = { s with tv := setUt1 s.tv v }) ∨
      (r = .dstNext ∧ t = { s with dstNext := dstNextOf v }) ∨
      (r = .opa ∧ t = { s with opa := v }) ∨
      ∃ k : Fin 4, r = .amBuf k ∧ t = { s with am := setAmWord s.am k.val v } := by
  cases r <;> first
    | (cases h; done)
    | exact .inl ⟨rfl, h⟩
    | (cases h; simp)

/-- A command write runs a decoded command or raises `ILLEGAL`. -/
theorem runCommand_next {w : Word} {s t : State} (h : runCommand w s = .next t) :
    (∃ i, decode w = .ok i ∧ exec i s = .next t) ∨
      (∃ e, decode w = .error e ∧ t = raiseError .illegal s) := by
  unfold runCommand at h
  split at h
  · rename_i i hi
    exact .inl ⟨i, hi, h⟩
  · rename_i e he
    cases h
    exact .inr ⟨e, he, rfl⟩

/-- A step that does not fault found nothing pending, served a reset, or served an access. -/
theorem step_next {s t : State} (h : step s = .next t) :
    (s.port = [] ∧ t = s) ∨
      (∃ rest, s.port = .hardReset :: rest ∧ t = resetBlock (takeFromPort rest s)) ∨
      ∃ a rest, s.port = .access a :: rest ∧ serveAccess a (takeFromPort rest s) = .next t := by
  unfold step servePort at h
  split at h
  · rename_i hp
    cases h
    exact .inl ⟨hp, rfl⟩
  · rename_i e rest hp
    cases e with
    | hardReset =>
      cases h
      exact .inr (.inl ⟨rest, hp, rfl⟩)
    | access a => exact .inr (.inr ⟨a, rest, hp, h⟩)

/-- A whole-word access to a register, as the host-program notation writes it, is accepted where the
register admits it. -/
theorem acceptAccess_wordAccess (op : BusOp) (r : Reg) (hop : op ≠ .atomic) :
    acceptAccess { op := op, offset := BitVec.ofNat 7 (regOffset r), width := 32, enables := 0b1111#4 }
      = match rightsError op r with | some c => .error c | none => .ok r := by
  have h : regAt (BitVec.ofNat 7 (regOffset r)).toNat = some r ∧
      (BitVec.ofNat 7 (regOffset r)).toNat % 4 = 0 := by
    cases r
    case amBuf k => revert k; decide
    case pmBuf k => revert k; decide
    all_goals decide
  simp only [acceptAccess, wholeWord, h.1, h.2]
  cases op <;> simp_all <;> cases rightsError _ r <;> rfl

/-- Serving a read in the host-program notation. -/
theorem serveEvent_hostRead (r : Reg) (s : State) :
    serveEvent (hostRead r) s = .next { s with response := .data (readReg r s) } := by
  simp only [hostRead, wordAccess, serveEvent, serveAccess,
    acceptAccess_wordAccess .read r (by simp), rightsError]

/-- Serving a write to a writable register in the host-program notation. -/
theorem serveEvent_hostWrite (r : Reg) (v : Word) (s : State) (h : regWritable r = true) :
    serveEvent (hostWrite r v) s = writeReg r v s := by
  simp only [hostWrite, wordAccess, serveEvent, serveAccess,
    acceptAccess_wordAccess (.write v) r (by simp), rightsError, h, if_true]

/-! ### The block does not see the bus -/

/-- An outcome with its next state, if it has one, changed by `f`. -/
def mapNext (f : State → State) :
    Host.Outcome State Fault Refusal → Host.Outcome State Fault Refusal
  | .next s => .next (f s)
  | .fault r => .fault r
  | .refused r => .refused r

@[simp] theorem mapNext_next (f : State → State) (s : State) :
    mapNext f (.next s) = .next (f s) := rfl

@[simp] theorem mapNext_fault (f : State → State) (r : Fault) :
    mapNext f (.fault r) = .fault r := rfl

@[simp] theorem mapNext_refused (f : State → State) (r : Refusal) :
    mapNext f (.refused r) = .refused r := rfl

/-- A state with another bus: what is still pending and what was last answered. -/
def overBus (port : List HostEvent) (response : BusResponse) (s : State) : State :=
  { s with port := port, response := response }

/-- A command acts on the block alone: with another bus it does the same and leaves that bus. -/
theorem exec_overBus (i : Instr) (p : List HostEvent) (r : BusResponse) (s : State) :
    exec i (overBus p r s) = mapNext (overBus p r) (exec i s) := by
  have hc : ∀ (legal : Bool) (u v : State), checked legal (overBus p r u) (overBus p r v)
      = mapNext (overBus p r) (checked legal u v) := by
    intro legal u v
    cases legal <;> rfl
  cases i
  case decAm =>
    have h : (overBus p r s).am = s.am := rfl
    simp only [exec, execDecAm, h]
    cases decAm s.am <;> rfl
  case rxFeed sym =>
    simp only [exec, execRxFeed]
    rw [← hc]
    congr 1
    have h : ∀ u : RxResult, applyRx u (overBus p r s) = overBus p r (applyRx u s) := by
      intro u
      unfold applyRx
      cases u.emitted <;> rfl
    simp only [complete, overBus] at h ⊢
    rw [h]
  case nop => rfl
  case rxReset => rfl
  case softReset => rfl
  all_goals
    simp only [exec]
    first
      | unfold execEncAm | unfold execEncPm | unfold execEncTc | unfold execHamming
      | unfold execLfsrRd | unfold execBcdPack | unfold execBcdUnpack | unfold execMoc
      | unfold execMinlen
    rw [← hc]
    simp only [complete, overBus]

/-- A register write acts on the block alone. -/
theorem writeReg_overBus (r : Reg) (v : Word) (p : List HostEvent) (b : BusResponse) (s : State) :
    writeReg r v (overBus p b s) = mapNext (overBus p b) (writeReg r v s) := by
  cases r
  case cmd =>
    simp only [writeReg, runCommand]
    cases decode v
    · rfl
    · exact exec_overBus _ p b s
  all_goals rfl

/-- Serving an interaction does not see what stands behind it at the port. -/
theorem serveEvent_overPort (e : HostEvent) (p rest : List HostEvent) (s : State) :
    serveEvent e (takeFromPort p s)
      = mapNext (fun t => { t with port := p }) (serveEvent e (takeFromPort rest s)) := by
  cases e
  case hardReset => rfl
  case access a =>
    simp only [serveEvent, serveAccess]
    cases acceptAccess a
    · rfl
    case ok r =>
      cases a.op
      case read => cases r <;> rfl
      case atomic => rfl
      case write v =>
        show writeReg r v (overBus p .done s) = mapNext _ (writeReg r v (overBus rest .done s))
        rw [writeReg_overBus, writeReg_overBus]
        cases h : writeReg r v s <;> rfl

/-- Serving two sequences one after the other is serving them joined. -/
theorem serveAll_append (a b : List HostEvent) (s : State) :
    serveAll (a ++ b) s =
      match serveAll a s with
      | .next t => serveAll b t
      | .fault r => .fault r
      | .refused r => .refused r := by
  induction a generalizing s with
  | nil => rfl
  | cons e a ih =>
    simp only [List.cons_append, serveAll]
    cases serveEvent e (takeFromPort s.port s)
    · exact ih _
    · rfl
    · rfl

end Sys2Proof.Machine
end

