-- ==== Sys2Proof/Laws/Commands.lean ====
section
/-! SUPPORT. What the commands' shared endings and checks say, in the terms of the statements. -/

namespace Sys2Proof.Machine

/-- Completing a command, as a record (R245). -/
theorem complete_eq (s : State) (valid emit : Bool) :
    complete s valid emit = { s with status := succeeded s.status valid emit } := by
  simp [complete, statusAfter, succeeded]

/-- Refusing operands, as a record (R242). -/
theorem raiseError_badArg (s : State) :
    raiseError .badArg s = { s with status := badArgStatus } := by
  simp [raiseError, statusAfter, badArgStatus]

/-- Refusing a word, as a record (R241). -/
theorem raiseError_illegal (s : State) :
    raiseError .illegal s = { s with status := illegalStatus } := by
  simp [raiseError, statusAfter, illegalStatus]

/-- The check of `TV` in the rule's own numbers (R129). -/
theorem validTv_iff (tv : TimeValue) : validTv tv = true ↔ legalTv tv := by
  simp only [validTv, Bool.and_eq_true, decide_eq_true_eq, legalTv]
  exact ⟨fun ⟨⟨⟨⟨⟨⟨⟨a, b⟩, c⟩, d⟩, e⟩, f⟩, g⟩, h⟩ => ⟨a, b, c, d, e, f, g, h⟩,
    fun ⟨a, b, c, d, e, f, g, h⟩ => ⟨⟨⟨⟨⟨⟨⟨a, b⟩, c⟩, d⟩, e⟩, f⟩, g⟩, h⟩⟩

end Sys2Proof.Machine
end

