-- ==== Sys2Proof/Laws/Encoders.lean ====
section
/-! SUPPORT. What the two encoders leave in a cell: every cell is written at most once, so a cell holds
exactly the value of its one assignment. -/

namespace Sys2Proof.Machine

/-! ### Cells written once -/

/-- A cell written exactly once holds the value of that assignment. -/
theorem find?_reverse_of_mem {α : Type} {ws : List (Nat × α)} {i : Nat} {v : α}
    (hn : (ws.map Prod.fst).Nodup) (hm : (i, v) ∈ ws) :
    ws.reverse.find? (fun w => w.1 == i) = some (i, v) := by
  induction ws using List.reverseRecOn with
  | nil => cases hm
  | append_singleton ws w ih =>
    rw [List.map_append, List.nodup_append] at hn
    obtain ⟨hn, -, hd⟩ := hn
    rw [List.reverse_append, List.reverse_singleton, List.singleton_append, List.find?_cons]
    rcases List.mem_append.1 hm with h | h
    · have hi : i ∈ ws.map Prod.fst := List.mem_map.2 ⟨_, h, rfl⟩
      have hw : (w.1 == i) = false := by
        have := hd i hi w.1 (by simp)
        simpa using fun e => this e.symm
      simp only [hw]
      exact ih hn h
    · rw [List.mem_singleton] at h
      subst h
      simp

/-- The AM form of `find?_reverse_of_mem`. -/
theorem amCell_of_mem {buf : AmBuf} {ws : List (Nat × AmSym)} {i : Nat} {v : AmSym} (hi : i < 61)
    (hn : (ws.map Prod.fst).Nodup) (hm : (i, v) ∈ ws) : amCell (writeCells buf ws) i = v := by
  rw [amCell_writeCells buf ws i hi, find?_reverse_of_mem hn hm]

/-- The PM form of `find?_reverse_of_mem`. -/
theorem pmCell_of_mem {buf : PmBuf} {ws : List (Nat × PmSym)} {i : Nat} {v : PmSym} (hi : i < 61)
    (hn : (ws.map Prod.fst).Nodup) (hm : (i, v) ∈ ws) : pmCell (writeCells buf ws) i = v := by
  rw [pmCell_writeCells buf ws i hi, find?_reverse_of_mem hn hm]

/-- A cell no assignment writes keeps what it held. -/
theorem amCell_of_not_mem {buf : AmBuf} {ws : List (Nat × AmSym)} {i : Nat} (hi : i < 61)
    (hm : i ∉ ws.map Prod.fst) : amCell (writeCells buf ws) i = amCell buf i := by
  have : ws.reverse.find? (fun w => w.1 == i) = none := by
    simp only [List.find?_eq_none, List.mem_reverse, beq_iff_eq]
    exact fun w hw e => hm (List.mem_map.2 ⟨w, hw, e⟩)
  rw [amCell_writeCells buf ws i hi, this]

/-- A cell no assignment writes keeps what it held. -/
theorem pmCell_of_not_mem {buf : PmBuf} {ws : List (Nat × PmSym)} {i : Nat} (hi : i < 61)
    (hm : i ∉ ws.map Prod.fst) : pmCell (writeCells buf ws) i = pmCell buf i := by
  have : ws.reverse.find? (fun w => w.1 == i) = none := by
    simp only [List.find?_eq_none, List.mem_reverse, beq_iff_eq]
    exact fun w hw e => hm (List.mem_map.2 ⟨w, hw, e⟩)
  rw [pmCell_writeCells buf ws i hi, this]

/-! ### The AM encoder -/

/-- Bit `k` of a BCD field, most significant position first, goes to position `length - 1 - k`
(R102). -/
theorem fieldWrites_mem (positions : List Nat) (v k : Nat) (hk : k < positions.length) :
    (positions.getD (positions.length - 1 - k) 0,
      amSymOfBit ((bcdPack v positions.length).testBit k)) ∈ fieldWrites positions v := by
  refine List.mem_map.2 ⟨(positions.reverse[k]'(by simpa using hk), k), ?_, ?_⟩
  · exact List.mk_mem_zipIdx_iff_getElem?.2 (by simp [hk])
  · rw [List.getElem_reverse, List.getD_eq_getElem _ _ (by omega)]

/-- The positions a BCD field writes. -/
theorem fieldWrites_fst (positions : List Nat) (v : Nat) :
    (fieldWrites positions v).map Prod.fst = positions.reverse := by
  rw [fieldWrites, List.map_map]
  exact List.zipIdx_map_fst 0 positions.reverse

/-- The cells `am_encode` writes, in order. -/
theorem amWrites_fst (tv : TimeValue) (len : Nat) :
    (amWrites tv len).map Prod.fst =
      [0, 9, 19, 29, 39, 49] ++ (if 60 ≤ len then [59] else []) ++ (if len = 61 then [60] else [])
        ++ [4, 10, 11, 14, 20, 21, 24, 34, 35, 44, 54] ++ [8, 7, 6, 5, 3, 2, 1]
        ++ [18, 17, 16, 15, 13, 12] ++ [33, 32, 31, 30, 28, 27, 26, 25, 23, 22] ++ [36, 37, 38]
        ++ [43, 42, 41, 40] ++ [53, 52, 51, 50, 48, 47, 46, 45] ++ [55, 56] ++ [58, 57] := by
  simp only [amWrites, markWrites, List.map_append, fieldWrites_fst]
  congr 11
  · split <;> rfl
  · split <;> rfl

/-- `am_encode` writes no cell twice (R152). -/
theorem amWrites_nodup (tv : TimeValue) (len : Nat) : ((amWrites tv len).map Prod.fst).Nodup := by
  rw [amWrites_fst]
  by_cases h : 60 ≤ len
  · by_cases h' : len = 61
    · simp only [h', if_true]
      decide
    · simp only [h, h', if_true, if_false]
      decide
  · have h' : ¬len = 61 := by omega
    simp only [h, h', if_false]
    decide

/-- A cell of an encoded minute holds the value of its assignment. -/
theorem amCell_amEncode {tv : TimeValue} {len i : Nat} {v : AmSym} (hi : i < 61)
    (hm : (i, v) ∈ amWrites tv len) : amCell (amEncode tv len) i = v :=
  amCell_of_mem hi (amWrites_nodup tv len) hm

/-- The assignments of `am_encode`, by the rule that makes them. -/
theorem mem_amWrites {tv : TimeValue} {len : Nat} {w : Nat × AmSym} :
    w ∈ amWrites tv len ↔
      w ∈ markWrites len ∨ w ∈ zeroWrites ∨ w ∈ fieldWrites minutePositions tv.minute.toNat ∨
      w ∈ fieldWrites hourPositions tv.hour.toNat ∨ w ∈ fieldWrites daysPositions tv.days.toNat ∨
      w ∈ signWrites (ut1Of tv) ∨ w ∈ fieldWrites ut1Positions ((ut1Of tv).natAbs / 100) ∨
      w ∈ fieldWrites yearPositions tv.year.toNat ∨
      w ∈ [(55, amSymOfBit tv.ly), (56, amSymOfBit tv.ls)] ∨
      w ∈ fieldWrites dstPositions tv.dst.toNat := by
  simp only [amWrites, List.mem_append, or_assoc]

/-! ### The PM encoder -/

/-- The cells `pm_encode` writes in a regular minute, in order. -/
theorem regularWrites_fst (tv : TimeValue) (dn : BitVec 6) (len : Nat) :
    (regularWrites tv dn len).map Prod.fst =
      [0, 1, 2, 3, 4, 5, 6, 7, 8, 9, 10, 11, 12] ++ [13, 14, 15, 16, 17]
        ++ [18, 19, 20, 21, 22, 23, 24, 25, 26, 27, 28, 30, 31, 32, 33, 34, 35, 36, 37, 38, 40, 41,
          42, 43, 44, 45, 46]
        ++ [29, 39] ++ [47, 48, 50, 51, 52] ++ [49] ++ [53, 54, 55, 56, 57, 58]
        ++ ((if 60 ≤ len then [59] else []) ++ (if len = 61 then [60] else [])) := by
  simp only [regularWrites, tailWrites, List.map_append]
  congr 2
  · split <;> rfl
  · split <;> rfl

/-- `pm_encode` writes no cell twice in a regular minute. -/
theorem regularWrites_nodup (tv : TimeValue) (dn : BitVec 6) (len : Nat) :
    ((regularWrites tv dn len).map Prod.fst).Nodup := by
  rw [regularWrites_fst]
  by_cases h : 60 ≤ len
  · by_cases h' : len = 61
    · simp only [h', if_true]
      decide
    · simp only [h, h', if_true, if_false]
      decide
  · have h' : ¬len = 61 := by omega
    simp only [h, h', if_false]
    decide

/-- A cell of a regular minute holds the value of its assignment. -/
theorem pmCell_regular {tv : TimeValue} {dn : BitVec 6} {len i : Nat} {v : PmSym} (hi : i < 61)
    (hx : extendedMinute tv.minute.toNat = false) (hm : (i, v) ∈ regularWrites tv dn len) :
    pmCell (pmEncode tv dn len) i = v := by
  rw [pmEncode, pmWrites, hx]
  exact pmCell_of_mem hi (regularWrites_nodup tv dn len) hm

/-- The assignments of a regular minute, by the rule that makes them. -/
theorem mem_regularWrites {tv : TimeValue} {dn : BitVec 6} {len : Nat} {w : Nat × PmSym} :
    w ∈ regularWrites tv dn len ↔
      w ∈ syncWrites ∨ w ∈ parityWrites (minuteOfCentury tv) ∨ w ∈ mocWrites (minuteOfCentury tv) ∨
      w ∈ reservedWrites ∨ w ∈ dstLsWrites tv ∨ w ∈ noticeWrites ∨ w ∈ dstNextWrites dn ∨
      w ∈ tailWrites len := by
  simp only [regularWrites, List.mem_append, or_assoc]

/-- The cells `pm_encode` writes in an extended minute, in order. -/
theorem extendedWrites_fst (tv : TimeValue) :
    (extendedWrites tv).map Prod.fst = List.range 60 := by
  rw [extendedWrites, List.map_map]
  exact List.map_id _

/-- A cell of an extended minute holds its bit of the 360-bit sequence (R175). -/
theorem pmCell_extended {tv : TimeValue} {dn : BitVec 6} {len i : Nat} (hi : i < 60)
    (hx : extendedMinute tv.minute.toNat = true) :
    pmCell (pmEncode tv dn len) i =
      pmSymOfBit ((superFrame (seqno tv)).getD (60 * (tv.minute.toNat % 10) + i) false) := by
  rw [pmEncode, pmWrites, hx]
  refine pmCell_of_mem (by omega) ?_ ?_
  · simp only [if_true]
    rw [extendedWrites_fst]
    exact List.nodup_range
  · exact List.mem_map.2 ⟨i, List.mem_range.2 hi, rfl⟩

end Sys2Proof.Machine
end

