-- ==== Sys2Proof/Laws/Registers.lean ====
section
/-! SUPPORT. The words registers read as and the cells a buffer write stores, by their bits. -/

namespace Sys2Proof.Machine

theorem symOfCode_symCode (v : AmSym) : symOfCode (symCode v) = v := by
  cases v <;> rfl

theorem symCode_lt (v : AmSym) : symCode v < 4 := by
  cases v <;> decide

theorem symCode_symOfCode (n : Nat) (h : n < 4) : symCode (symOfCode n) = n := by
  match n, h with
  | 0, _ => rfl
  | 1, _ => rfl
  | 2, _ => rfl
  | 3, _ => rfl

/-- A field of a word given by a number is that part of the number. -/
theorem extractLsb'_ofNat (n lo len : Nat) (h : lo + len ≤ 32) :
    (BitVec.ofNat 32 n).extractLsb' lo len = BitVec.ofNat len (n / 2 ^ lo) := by
  apply BitVec.eq_of_toNat_eq
  have split : 2 ^ 32 = 2 ^ lo * 2 ^ (32 - lo) := by
    rw [← Nat.pow_add, Nat.add_sub_cancel' (by omega)]
  rw [BitVec.extractLsb'_toNat, BitVec.toNat_ofNat, BitVec.toNat_ofNat, Nat.shiftRight_eq_div_pow,
    split, Nat.mod_mul_right_div_self, Nat.mod_mod_of_dvd]
  exact Nat.pow_dvd_pow 2 (by omega)

/-- A bit of a word given by a number is that bit of the number. -/
theorem getLsbD_wordOfNat (n k : Nat) (h : k < 32) :
    (BitVec.ofNat 32 n).getLsbD k = decide (n / 2 ^ k % 2 = 1) := by
  rw [BitVec.getLsbD_ofNat, Nat.testBit_eq_decide_div_mod_eq]
  simp only [h, decide_true, Bool.true_and]

/-- The bits of a field moved up to bit `m`. -/
theorem getLsbD_fieldAt {w : Nat} (x : BitVec w) (m k : Nat) (hk : k < 32) :
    (x.setWidth 32 <<< m).getLsbD k = (decide (m ≤ k) && x.getLsbD (k - m)) := by
  rw [BitVec.getLsbD_shiftLeft, BitVec.getLsbD_setWidth]
  by_cases h : k < m
  · simp [hk, h, show ¬m ≤ k by omega]
  · simp [hk, h, show m ≤ k by omega, show k - m < 32 by omega]

/-- The bits of a date word (R24). -/
theorem getLsbD_dateWord (tv : TimeValue) (k : Nat) (hk : k < 32) :
    (dateWord tv).getLsbD k =
      (tv.year.getLsbD k || (decide (16 ≤ k) && tv.days.getLsbD (k - 16))) := by
  rw [dateWord, BitVec.getLsbD_or, getLsbD_fieldAt _ _ _ hk, BitVec.getLsbD_setWidth]
  simp only [hk, decide_true, Bool.true_and]

/-- The bits of a time word (R25). -/
theorem getLsbD_timeWord (tv : TimeValue) (k : Nat) (hk : k < 32) :
    (timeWord tv).getLsbD k =
      (tv.hour.getLsbD k || (decide (8 ≤ k) && tv.minute.getLsbD (k - 8))
        || (decide (16 ≤ k) && tv.dst.getLsbD (k - 16))
        || (decide (24 ≤ k) && (BitVec.ofBool tv.ls).getLsbD (k - 24))
        || (decide (25 ≤ k) && (BitVec.ofBool tv.ly).getLsbD (k - 25))) := by
  simp only [timeWord, BitVec.getLsbD_or, getLsbD_fieldAt _ _ _ hk, BitVec.getLsbD_setWidth, hk,
    decide_true, Bool.true_and]

/-- The bits of a receiver status word (R35). -/
theorem getLsbD_rxStatWord (st : RxState) (acc : List AmSym) (k : Nat) (hk : k < 32) :
    (rxStatWord st acc).getLsbD k =
      ((rxStateCode st).testBit k
        || (decide (8 ≤ k) && (BitVec.ofNat 8 acc.length).getLsbD (k - 8))) := by
  rw [rxStatWord, BitVec.getLsbD_or, getLsbD_fieldAt _ _ _ hk, BitVec.getLsbD_ofNat]
  simp only [hk, decide_true, Bool.true_and]

/-- Bit `k` of a buffer word: a bit of the code of the cell it belongs to. -/
theorem getLsbD_bufferWord (code : Nat → Nat) (w k : Nat) (hk : k < 32) :
    (bufferWord code w).getLsbD k =
      (decide (16 * w + k / 2 < 61) && (code (16 * w + k / 2)).testBit (k % 2)) := by
  rw [bufferWord, BitVec.getLsbD_ofNat, testBit_bitsToNat]
  simp only [hk, decide_true, Bool.true_and]

/-- A field read back from a buffer word is the code of its cell. -/
theorem bitField_bufferWord (code : Nat → Nat) (w j : Nat) (hj : j < 16) (hc : 16 * w + j < 61)
    (hcode : code (16 * w + j) < 4) :
    bitField (bufferWord code w) (2 * j) 2 = code (16 * w + j) := by
  apply Nat.eq_of_testBit_eq
  intro i
  rw [testBit_bitField]
  by_cases hi : i < 2
  · rw [getLsbD_bufferWord _ _ _ (by omega), show (2 * j + i) / 2 = j by omega,
      show (2 * j + i) % 2 = i by omega]
    simp [hi, hc]
  · have : (code (16 * w + j)).testBit i = false := by
      apply Nat.testBit_eq_false_of_lt
      exact Nat.lt_of_lt_of_le hcode (Nat.pow_le_pow_right (n := 2) Nat.two_pos (by omega : 2 ≤ i))
    simp [hi, this]

/-- After a host write of a buffer word: its own cells take the codes, the others stay. -/
theorem amCell_setAmWord (am : AmBuf) (w : Nat) (v : Word) (i : Nat) (hi : i < 61) :
    amCell (setAmWord am w v) i =
      if i / 16 = w then symOfCode (bitField v (2 * (i % 16)) 2) else amCell am i := by
  simp [amCell, setAmWord, hi]

/-- A buffer is determined by its cells. -/
theorem amBuf_ext {a b : AmBuf} (h : ∀ i < 61, amCell a i = amCell b i) : a = b := by
  apply Vector.ext
  intro i hi
  simpa [amCell, hi] using h i hi

/-- A buffer is determined by its cells. -/
theorem pmBuf_ext {a b : PmBuf} (h : ∀ i < 61, pmCell a i = pmCell b i) : a = b := by
  apply Vector.ext
  intro i hi
  simpa [pmCell, hi] using h i hi

end Sys2Proof.Machine
end

