-- ==== Sys2Proof/Laws/PerInstr.lean ====
section
/-! SUPPORT. One lemma per command: its encoding's fields are the ones the encoding table gives. -/

namespace Sys2Proof.Laws

/-- R80 to R82: a well-formed command is encoded with its opcode in `OPC`, its operand in `IMM8`, and
0 in the reserved half-word. -/
def EncodedFields.Statement (i : Instr) : Prop :=
  i.wellFormed = true →
    bitField (encode i) 0 8 = opcode i ∧ bitField (encode i) 8 8 = imm8 i ∧
      bitField (encode i) 16 16 = 0

/-- The fields of a word assembled from an opcode and an immediate that fit theirs. -/
theorem bitField_assembled (op imm : Nat) (h : op < 256) (h' : imm < 256) :
    bitField (BitVec.ofNat 32 (op + 2 ^ 8 * imm)) 0 8 = op ∧
      bitField (BitVec.ofNat 32 (op + 2 ^ 8 * imm)) 8 8 = imm ∧
      bitField (BitVec.ofNat 32 (op + 2 ^ 8 * imm)) 16 16 = 0 := by
  have : (BitVec.ofNat 32 (op + 2 ^ 8 * imm)).toNat = op + 2 ^ 8 * imm := by
    rw [BitVec.toNat_ofNat]
    omega
  simp only [bitField, this]
  omega

theorem EncodedFields.nop : EncodedFields.Statement .nop :=
  fun _ => bitField_assembled _ _ (by decide) (by decide)

theorem EncodedFields.encAm : EncodedFields.Statement .encAm :=
  fun _ => bitField_assembled _ _ (by decide) (by decide)

theorem EncodedFields.encPm : EncodedFields.Statement .encPm :=
  fun _ => bitField_assembled _ _ (by decide) (by decide)

theorem EncodedFields.encTc : EncodedFields.Statement .encTc :=
  fun _ => bitField_assembled _ _ (by decide) (by decide)

theorem EncodedFields.decAm : EncodedFields.Statement .decAm :=
  fun _ => bitField_assembled _ _ (by decide) (by decide)

theorem EncodedFields.rxFeed (sym : AmSym) : EncodedFields.Statement (.rxFeed sym) :=
  fun _ => bitField_assembled 0x05 _ (by decide)
    (Nat.lt_trans (Machine.symCode_lt sym) (by decide))

theorem EncodedFields.rxReset : EncodedFields.Statement .rxReset :=
  fun _ => bitField_assembled _ _ (by decide) (by decide)

theorem EncodedFields.hamming : EncodedFields.Statement .hamming :=
  fun _ => bitField_assembled _ _ (by decide) (by decide)

theorem EncodedFields.lfsrRd (index : Nat) : EncodedFields.Statement (.lfsrRd index) :=
  fun h => bitField_assembled 0x08 _ (by decide) (of_decide_eq_true h)

theorem EncodedFields.bcdPack (n : Nat) : EncodedFields.Statement (.bcdPack n) :=
  fun h => bitField_assembled 0x09 _ (by decide) (of_decide_eq_true h)

theorem EncodedFields.bcdUnpack (n : Nat) : EncodedFields.Statement (.bcdUnpack n) :=
  fun h => bitField_assembled 0x0A _ (by decide) (of_decide_eq_true h)

theorem EncodedFields.moc : EncodedFields.Statement .moc :=
  fun _ => bitField_assembled _ _ (by decide) (by decide)

theorem EncodedFields.minlen : EncodedFields.Statement .minlen :=
  fun _ => bitField_assembled _ _ (by decide) (by decide)

theorem EncodedFields.softReset : EncodedFields.Statement .softReset :=
  fun _ => bitField_assembled _ _ (by decide) (by decide)

end Sys2Proof.Laws
end

