-- ==== Sys2Proof/Laws/Primitives.lean ====
section
/-! SUPPORT. What the primitive functions compute, said once: BCD by digits, fields by cells, parity by
counting, and the three lengths of a minute. -/

namespace Sys2Proof.Machine

/-- A word is below a power of two exactly when its higher bits are 0. -/
theorem toNat_lt_iff (x : Word) (n : Nat) : x.toNat < 2 ^ n ↔ ∀ k, n ≤ k → x.getLsbD k = false :=
  ⟨fun h _ hk =>
    Nat.testBit_lt_two_pow (Nat.lt_of_lt_of_le h (Nat.pow_le_pow_right Nat.two_pos hk)),
   fun h => Nat.lt_pow_two_of_testBit _ h⟩

/-! ### BCD -/

/-- R100, by bits. -/
theorem bcdPack_testBit (v n k : Nat) :
    (bcdPack v n).testBit k = (decide (k < n) && (v / 10 ^ (k / 4) % 10).testBit (k % 4)) := by
  rw [bcdPack, testBit_bitsToNat, digit]

/-- One group of R103, by bits. -/
theorem bcdGroup_testBit (b n j i : Nat) :
    (bcdGroup b n j).testBit i = (decide (i < min 4 (n - 4 * j)) && b.testBit (4 * j + i)) := by
  rw [bcdGroup, Nat.testBit_mod_two_pow, Nat.testBit_div_two_pow, Nat.add_comm]

/-- A group of a value built from bits is built from the group's own bits. -/
theorem bcdGroup_bitsToNat (f : Nat → Bool) (n j : Nat) :
    bcdGroup (bitsToNat f n) n j = bitsToNat (fun i => f (4 * j + i)) (min 4 (n - 4 * j)) := by
  apply Nat.eq_of_testBit_eq
  intro i
  rw [bcdGroup_testBit, testBit_bitsToNat, testBit_bitsToNat]
  by_cases h : i < min 4 (n - 4 * j)
  · simp [h, show 4 * j + i < n by omega]
  · simp [h]

theorem bcdUnpack_fold_none (b n : Nat) (l : List Nat) :
    l.foldl
      (fun acc j =>
        acc.bind fun r => if bcdGroup b n j > 9 then none else some (r + bcdGroup b n j * 10 ^ j))
      (none : Option Nat) = none := by
  induction l with
  | nil => rfl
  | cons a l ih => simpa using ih

theorem bcdUnpack_fold (b n : Nat) (l : List Nat) (r : Nat) :
    l.foldl
      (fun acc j =>
        acc.bind fun r => if bcdGroup b n j > 9 then none else some (r + bcdGroup b n j * 10 ^ j))
      (some r) =
    if ∀ j ∈ l, bcdGroup b n j ≤ 9 then some (r + (l.map fun j => bcdGroup b n j * 10 ^ j).sum)
    else none := by
  induction l generalizing r with
  | nil => simp
  | cons a l ih =>
    rw [List.foldl_cons, Option.bind_some]
    by_cases h : bcdGroup b n a > 9
    · rw [if_pos h, bcdUnpack_fold_none, if_neg]
      intro hh
      have := hh a (by simp)
      omega
    · rw [if_neg h, ih]
      simp [Nat.not_lt.1 h, Nat.add_assoc]

/-- R103 without its loop: the sum of the digits where none is above 9. -/
theorem bcdUnpack_eq (b n : Nat) :
    bcdUnpack b n =
      if ∀ j < (n + 3) / 4, bcdGroup b n j ≤ 9 then
        some ((List.range ((n + 3) / 4)).map fun j => bcdGroup b n j * 10 ^ j).sum
      else none := by
  rw [bcdUnpack, bcdUnpack_fold]
  simp only [List.mem_range, Nat.zero_add]

/-- The digit that the cells of group `j` of a field hold, least significant group first. -/
def fieldDigit (am : AmBuf) (positions : List Nat) (j : Nat) : Nat :=
  bitsToNat (fun i => amCell am (positions.reverse.getD (4 * j + i) 0) == .one)
    (min 4 (positions.length - 4 * j))

/-- A field with a cell that is neither `ZERO` nor `ONE` reads `bad` (R104). -/
theorem getField_bad {am : AmBuf} {positions : List Nat}
    (h : ¬∀ p ∈ positions, amCell am p = .zero ∨ amCell am p = .one) :
    getField am positions = .bad := by
  rw [getField, if_neg]
  simpa using h

/-- A binary field reads the sum of its digits where none is above 9 (R104). -/
theorem getField_binary {am : AmBuf} {positions : List Nat}
    (h : ∀ p ∈ positions, amCell am p = .zero ∨ amCell am p = .one) :
    getField am positions =
      if ∀ j < (positions.length + 3) / 4, fieldDigit am positions j ≤ 9 then
        .value ((List.range ((positions.length + 3) / 4)).map fun j =>
          fieldDigit am positions j * 10 ^ j).sum
      else .noDigit := by
  rw [getField, if_pos (by simpa using h), bcdUnpack_eq]
  simp only [bcdGroup_bitsToNat]
  change (match (if ∀ j < (positions.length + 3) / 4, fieldDigit am positions j ≤ 9 then
      some ((List.range ((positions.length + 3) / 4)).map fun j =>
        fieldDigit am positions j * 10 ^ j).sum
    else none) with
    | some r => FieldRead.value r
    | none => FieldRead.noDigit) = _
  by_cases hd : ∀ j < (positions.length + 3) / 4, fieldDigit am positions j ≤ 9
  · rw [if_pos hd, if_pos hd]
  · rw [if_neg hd, if_neg hd]

/-! ### Hamming parity -/

theorem rowParity_fold (row : List Nat) (v : Nat) (b : Bool) :
    row.foldl (fun acc i => acc ^^ v.testBit i) b =
      (b ^^ decide (row.countP (fun i => v.testBit i) % 2 = 1)) := by
  induction row generalizing b with
  | nil => simp
  | cons a row ih =>
    rw [List.foldl_cons, ih, List.countP_cons]
    cases h : v.testBit a
    · simp
    · simp only [if_true]
      rcases Nat.mod_two_eq_zero_or_one (row.countP fun i => v.testBit i) with h' | h'
      · have : (row.countP (fun i => v.testBit i) + 1) % 2 = 1 := by omega
        simp [h', this]
      · have : (row.countP (fun i => v.testBit i) + 1) % 2 = 0 := by omega
        simp [h', this]

/-- A parity bit counts the ones its row lists (R111). -/
theorem hamming_testBit (v j : Nat) :
    (hamming v).testBit j =
      (decide (j < 5) &&
        decide ((hammingRows.getD j []).countP (fun i => v.testBit i) % 2 = 1)) := by
  rw [hamming, testBit_bitsToNat, rowParity, rowParity_fold, Bool.false_xor]

/-! ### Time values -/

/-- A minute has 59, 60 or 61 seconds (R120). -/
theorem lengthOf_cases (tv : TimeValue) :
    lengthOf tv = 59 ∨ lengthOf tv = 60 ∨ lengthOf tv = 61 := by
  unfold lengthOf minuteLength
  split
  · exact .inr (.inl rfl)
  · split
    · exact .inr (.inl rfl)
    · split
      · exact .inr (.inl rfl)
      · split
        · exact .inr (.inr rfl)
        · exact .inl rfl

/-- The length fits `TC_LEN` exactly (R130). -/
theorem tcLen_lengthOf (tv : TimeValue) : (BitVec.ofNat 8 (lengthOf tv)).toNat = lengthOf tv := by
  rcases lengthOf_cases tv with h | h | h <;> rw [h] <;> rfl

/-- The months' last days, as the statements list them (R121). -/
theorem leapMinute_iff (tv : TimeValue) :
    leapMinute tv ↔
      tv.ls = true ∧ (tv.hour.toNat == 23 && tv.minute.toNat == 59) = true ∧
        endOfMonth tv.days.toNat tv.ly = true := by
  simp only [leapMinute, endOfMonth, monthEndsLeap, monthEndsCommon, Bool.and_eq_true, beq_iff_eq,
    and_assoc]
  cases tv.ly <;> simp

/-- The predicate of R127, for either value of the parameter, as the statements write it. -/
theorem insertionWhen_iff (whenNonneg : Bool) (tv : TimeValue) :
    insertionWhen whenNonneg tv ↔ positiveLeap whenNonneg tv = true := by
  cases whenNonneg <;> simp [insertionWhen, positiveLeap]

/-- The parameter's predicate, as the statements write it (R127). -/
theorem insertion_iff (tv : TimeValue) :
    insertion tv ↔ positiveLeap Config.posLeapWhenUt1Nonneg tv = true :=
  insertionWhen_iff _ tv

/-- The 360-bit sequence of a super-frame, by index (R171). -/
theorem superFrame_getD (start n : Nat) (hn : n < 360) :
    (superFrame start).getD n false = frameBit start n := by
  have hl : (infoWord start).length = 127 := by simp [infoWord]
  have hi : ∀ k < 127, (infoWord start).getD k false = lfsrBit (start + k) := by
    intro k hk
    rw [List.getD_eq_getElem _ _ (by omega)]
    simp [infoWord]
  rw [superFrame, frameBit]
  split
  · rename_i h
    rw [List.getD_append _ _ _ _ (by simp [hl]; omega), List.getD_append _ _ _ _ (by omega),
      hi _ h]
  · split
    · rename_i h h'
      rw [List.getD_append (infoWord start ++ Config.ftw.toList) _ _ _
          (by rw [List.length_append, hl, Vector.length_toList]; omega),
        List.getD_append_right (infoWord start) _ _ _ (by omega), hl,
        List.getD_eq_getElem _ _ (by rw [Vector.length_toList]; exact h')]
      exact Vector.getElem_toList _
    · rename_i h h'
      rw [List.getD_append_right _ _ _ _ (by simp [hl]; omega),
        List.getD_eq_getElem _ _ (by simp [hl]; omega), List.getElem_reverse,
        ← List.getD_eq_getElem _ false, hi]
      · refine congrArg lfsrBit ?_
        simp only [List.length_append, hl, Vector.length_toList]
        omega
      · simp [hl]
        omega

end Sys2Proof.Machine
end

