-- ==== Sys2Proof/Laws/Receiver.lean ====
section
/-! SUPPORT. What one `RX_FEED` can do, said once. -/

namespace Sys2Proof.Machine

/-- State 4 on a symbol, by the set memberships of R217 and R218. -/
theorem rxInMinute_eq (acc : List AmSym) (v : AmSym) :
    rxInMinute acc v =
      if ¬(acc.length ∈ amMarks ↔ v = .mark) then rxGo (rxResync (acc.getLastD .unset) v)
      else if acc.length ∈ amZeros ∧ v ≠ .zero then rxGo .unsynced
      else if acc.length = 59 then
        { state := .oneMark, acc := [], emitted := some (acc ++ [v]) }
      else { state := .inMinute, acc := acc ++ [v], emitted := none } := by
  have hm : (amMarks.contains acc.length != (v == AmSym.mark)) = true ↔
      ¬(acc.length ∈ amMarks ↔ v = .mark) := by
    rw [List.contains_eq_mem, bne_iff_ne, ne_eq, Bool.eq_iff_iff, decide_eq_true_iff, beq_iff_eq]
  have hz : (amZeros.contains acc.length && v != AmSym.zero) = true ↔
      acc.length ∈ amZeros ∧ v ≠ .zero := by
    rw [List.contains_eq_mem, Bool.and_eq_true, decide_eq_true_iff, bne_iff_ne]
  simp only [rxInMinute, hm, hz]

/-- A received symbol: the receiver's transition, the emission, and `STATUS` (R212). -/
theorem exec_rxFeed {v : AmSym} (h : v ≠ .unset) (s : State) :
    exec (.rxFeed v) s =
      .next { applyRx (rxStep s.rxState s.rxAcc v) s with
        status := succeeded s.status false (rxStep s.rxState s.rxAcc v).emitted.isSome } := by
  simp only [exec, execRxFeed]
  rw [checked_of_legal (by simpa [symbolLegal] using h), complete_eq]
  congr 2
  rw [applyRx]
  split <;> rfl

/-- A transition that emits nothing changes the receiver and `STATUS` only. -/
theorem exec_rxFeed_quiet {v : AmSym} (h : v ≠ .unset) {s : State} {st : RxState}
    {acc : List AmSym}
    (hs : rxStep s.rxState s.rxAcc v = { state := st, acc := acc, emitted := none }) :
    exec (.rxFeed v) s =
      .next { s with
        rxState := st, rxAcc := acc, status := succeeded s.status false false } := by
  rw [exec_rxFeed h, hs]
  rfl

/-- R211's three kinds of position, by the two sets of R217 and R218. -/
theorem skeletonAdmits_iff (i : Nat) (v : AmSym) :
    skeletonAdmits i v ↔
      (i ∈ amMarks → v = .mark) ∧ (i ∉ amMarks → i ∈ amZeros → v = .zero) ∧
        (i ∉ amMarks → i ∉ amZeros → v = .zero ∨ v = .one) := by
  rw [skeletonAdmits]
  by_cases h : i ∈ amMarks
  · rw [if_pos (show i ∈ [0, 9, 19, 29, 39, 49, 59] from h)]
    simp [h]
  · rw [if_neg (show i ∉ [0, 9, 19, 29, 39, 49, 59] from h)]
    by_cases h' : i ∈ amZeros
    · rw [if_pos (show i ∈ [4, 10, 11, 14, 20, 21, 24, 34, 35, 44, 54] from h')]
      simp [h, h']
    · rw [if_neg (show i ∉ [4, 10, 11, 14, 20, 21, 24, 34, 35, 44, 54] from h')]
      simp [h, h']

/-- No fixed zero is a mark position. -/
theorem not_mem_amMarks_of_mem_amZeros {i : Nat} (h : i ∈ amZeros) : i ∉ amMarks := by
  intro hm
  simp only [amZeros, amMarks, List.mem_cons, List.not_mem_nil, or_false] at h hm
  omega

/-- A prefix of a skeleton grows by an admitted symbol. -/
theorem skeletonHolds_snoc {acc : List AmSym} {v : AmSym} (h : skeletonHolds acc)
    (hv : skeletonAdmits acc.length v) : skeletonHolds (acc ++ [v]) := by
  intro i hi
  rw [List.length_append, List.length_singleton] at hi
  by_cases h' : i < acc.length
  · rw [List.getElem_append_left h']
    exact h i h'
  · have : i = acc.length := by omega
    subst this
    rw [List.getElem_append_right (Nat.le_refl _)]
    simpa using hv

/-- What state 4 does with a symbol: it appends an admitted one, emits at position 59, and leaves the
minute at any other symbol (R216 to R219). -/
theorem rxInMinute_cases (acc : List AmSym) (v : AmSym) (hu : v ≠ .unset) :
    (rxInMinute acc v = { state := .inMinute, acc := acc ++ [v], emitted := none } ∧
        skeletonAdmits acc.length v ∧ acc.length ≠ 59) ∨
      (rxInMinute acc v = { state := .oneMark, acc := [], emitted := some (acc ++ [v]) } ∧
        skeletonAdmits acc.length v ∧ acc.length = 59) ∨
      ∃ st, rxInMinute acc v = rxGo st ∧ st ≠ .inMinute ∧ ¬skeletonAdmits acc.length v := by
  rw [rxInMinute_eq, skeletonAdmits_iff]
  by_cases h1 : acc.length ∈ amMarks ↔ v = .mark
  · rw [if_neg (by simpa using h1)]
    by_cases h2 : acc.length ∈ amZeros ∧ v ≠ .zero
    · rw [if_pos h2]
      exact .inr (.inr ⟨_, rfl, by simp,
        fun c => h2.2 (c.2.1 (not_mem_amMarks_of_mem_amZeros h2.1) h2.1)⟩)
    · rw [if_neg h2]
      have hs : (acc.length ∈ amMarks → v = .mark) ∧
          (acc.length ∉ amMarks → acc.length ∈ amZeros → v = .zero) ∧
          (acc.length ∉ amMarks → acc.length ∉ amZeros → v = .zero ∨ v = .one) := by
        refine ⟨h1.1, fun _ h => by by_contra hv; exact h2 ⟨h, hv⟩, fun a _ => ?_⟩
        have := mt h1.2 a
        cases v <;> simp_all
      by_cases h3 : acc.length = 59
      · rw [if_pos h3]
        exact .inr (.inl ⟨rfl, hs, h3⟩)
      · rw [if_neg h3]
        exact .inl ⟨rfl, hs, h3⟩
  · rw [if_pos h1]
    refine .inr (.inr ⟨_, rfl, ?_, ?_⟩)
    · rw [rxResync]
      split
      · split <;> simp
      · simp
    · rintro ⟨c1, c2, c3⟩
      refine h1 ⟨c1, fun hv => ?_⟩
      by_contra hm
      by_cases hz : acc.length ∈ amZeros
      · rw [c2 hm hz] at hv
        cases hv
      · rcases c3 hm hz with h | h <;> rw [h] at hv <;> cases hv

/-- Feeding one sequence and then another. -/
theorem feedAll_append {first second : List AmSym} {s t : State} (h : feedAll first s = .next t) :
    feedAll (first ++ second) s = feedAll second t := by
  induction first generalizing s with
  | nil =>
    cases h
    rfl
  | cons v first ih =>
    simp only [feedAll, List.cons_append] at h ⊢
    split at h
    · rename_i u hu
      exact ih h
    · cases h
    · cases h

theorem feedAll_singleton (v : AmSym) (s : State) : feedAll [v] s = exec (.rxFeed v) s := by
  simp only [feedAll]
  split <;> simp_all

/-- The cells of an emitted minute (R219). -/
theorem amCell_emittedAm (minute : List AmSym) (i : Nat) :
    amCell (emittedAm minute) i = if i < 60 then minute.getD i .unset else .unset := by
  simp only [amCell, emittedAm, Vector.getElem?_ofFn]
  split
  · simp
  · rename_i h
    rw [if_neg (by omega)]
    rfl

/-- An emitted minute is sent back as it was received. -/
theorem sentMinute_emittedAm {minute : List AmSym} (h : minute.length = 60) :
    sentMinute (emittedAm minute) = minute := by
  apply List.ext_getElem
  · simp [sentMinute, h]
  · intro i h1 h2
    simp only [sentMinute, List.getElem_map, List.getElem_range]
    rw [amCell_emittedAm, if_pos (by omega), List.getD_eq_getElem _ _ h2]

end Sys2Proof.Machine
end

