-- ==== Sys2Proof/Tests/Slice0.lean ====
section
/-! SUPPORT. Tests: well-formedness, decoding by words written out from the encoding table, one or two
single steps per command with results taken from 95_test_vectors.md, and a witness for the hypotheses of
every statement, clause by clause. -/

namespace Sys2Proof.Tests

open Sys2Proof.Machine

-- The evaluations below are many and small: they are checked one after the other.
set_option Elab.async false

/-! ### Helpers -/

/-- What `f` reads in the next state, if there is one. -/
def after {α : Type} (o : Host.Outcome State Fault Refusal) (f : State → α) : Option α :=
  match o with
  | .next t => some (f t)
  | .fault _ => none
  | .refused _ => none

/-- Whether a step answers a next state. -/
def nextOf (o : Host.Outcome State Fault Refusal) : Bool :=
  match o with
  | .next _ => true
  | .fault _ => false
  | .refused _ => false

/-- The fault a step stops with, if it does. -/
def faultOf (o : Host.Outcome State Fault Refusal) : Option Fault :=
  match o with
  | .next _ => none
  | .fault r => some r
  | .refused _ => none

/-- Symbols by their codes, which are their characters (R9); 3 stands for '.'. -/
def symbols (codes : List Nat) : List AmSym := codes.map symOfCode

/-- A time value from plain numbers. -/
def tvOf (year days hour minute dst : Nat) (ut1 : Int) (ls ly : Bool) : TimeValue :=
  { year := BitVec.ofNat 14 year, days := BitVec.ofNat 9 days, hour := BitVec.ofNat 5 hour,
    minute := BitVec.ofNat 6 minute, dst := BitVec.ofNat 2 dst, ut1 := BitVec.ofInt 16 ut1,
    ls := ls, ly := ly }

/-- The reset state with a time value loaded. -/
def withTv (tv : TimeValue) : State := { State.reset with tv := tv }

/-- The reset state with `OPA` loaded. -/
def withOpa (opa : Nat) : State := { State.reset with opa := BitVec.ofNat 32 opa }

/-- The reset state with an AM buffer loaded. -/
def withAm (codes : List Nat) : State := { State.reset with am := emittedAm (symbols codes) }

/-- The reset state with the receiver somewhere. -/
def withRx (st : RxState) (acc : List AmSym) : State :=
  { State.reset with rxState := st, rxAcc := acc }

/-- The reset state with host interactions pending. -/
def withPort (port : List HostEvent) : State := { State.reset with port := port }

/-- The 61 symbols of an AM buffer. -/
def amShown (am : AmBuf) : List AmSym := (List.range 61).map fun i => amCell am i

/-- The PM channel as the codes of its first 60 cells. -/
def pmShown (pm : PmBuf) : List Nat := (List.range 60).map fun i => pmSymCode (pmCell pm i)

/-- §8 vector 1 (95_test_vectors.md V1). -/
def vector1 : TimeValue := tvOf 2012 186 17 30 3 400 false true

/-- The leap-second minute of 95_test_vectors.md P5. -/
def leapTv : TimeValue := tvOf 2016 366 23 59 0 400 true true

/-- The same minute with a negative UT1, 59 seconds long. -/
def shortTv : TimeValue := tvOf 2016 366 23 59 0 (-400) true true

/-- The AM symbols of §8 vector 1. -/
def vector1Am : List Nat :=
  [2,0,1,1,0,0,0,0,0,2, 0,0,0,1,0,0,1,1,1,2, 0,0,0,1,0,1,0,0,0,2,
   0,1,1,0,0,0,1,0,1,2, 0,1,0,0,0,0,0,0,1,2, 0,0,1,0,0,1,0,1,1,2]

/-- The PM symbols of §8 vector 1. -/
def vector1Pm : List Nat :=
  [0,0,1,1,1,0,1,1,0,1, 0,0,0,1,0,0,1,0,0,0, 0,0,1,1,0,0,1,0,0,0,
   0,1,1,0,0,0,1,1,0,1, 0,0,1,1,0,1,0,0,0,1, 0,1,1,0,1,1,0,1,1,0]

/-- The AM symbols of §8 vector 3. -/
def vector3Am : List Nat :=
  [2,0,1,1,0,0,0,0,0,2, 0,0,1,0,0,0,0,1,0,2, 0,0,1,1,0,0,1,0,1,2,
   0,0,0,0,0,0,0,1,0,2, 0,0,0,1,0,0,0,1,0,2, 0,0,0,1,0,0,0,0,0,2]

/-! ### Well-formedness: an operand that no command word carries is refused -/

theorem test_wf_refuses_wide_index : (Instr.lfsrRd 256).wellFormed = false := by decide

theorem test_wf_refuses_wide_pack : (Instr.bcdPack 256).wellFormed = false := by decide

theorem test_wf_refuses_wide_unpack : (Instr.bcdUnpack 256).wellFormed = false := by decide

theorem test_wf_accepts_every_byte :
    (Instr.lfsrRd 255).wellFormed ∧ (Instr.bcdPack 0).wellFormed ∧ (Instr.bcdUnpack 255).wellFormed ∧
      (Instr.rxFeed .unset).wellFormed := by decide

/-! ### Decoding: words written out from the table of R81, `OPC` in [7:0], `IMM8` in [15:8] -/

theorem test_decode_nop : decode 0b00000000_00000000_00000000_00000000 = .ok .nop := by decide
theorem test_decode_encAm : decode 0b00000000_00000000_00000000_00000001 = .ok .encAm := by decide
theorem test_decode_encPm : decode 0b00000000_00000000_00000000_00000010 = .ok .encPm := by decide
theorem test_decode_encTc : decode 0b00000000_00000000_00000000_00000011 = .ok .encTc := by decide
theorem test_decode_decAm : decode 0b00000000_00000000_00000000_00000100 = .ok .decAm := by decide
theorem test_decode_rxFeed :
    decode 0b00000000_00000000_00000010_00000101 = .ok (.rxFeed .mark) := by decide
theorem test_decode_rxReset : decode 0b00000000_00000000_00000000_00000110 = .ok .rxReset := by decide
theorem test_decode_hamming : decode 0b00000000_00000000_00000000_00000111 = .ok .hamming := by decide
theorem test_decode_lfsrRd :
    decode 0b00000000_00000000_10000001_00001000 = .ok (.lfsrRd 129) := by decide
theorem test_decode_bcdPack :
    decode 0b00000000_00000000_00001010_00001001 = .ok (.bcdPack 10) := by decide
theorem test_decode_bcdUnpack :
    decode 0b00000000_00000000_00100000_00001010 = .ok (.bcdUnpack 32) := by decide
theorem test_decode_moc : decode 0b00000000_00000000_00000000_00001011 = .ok .moc := by decide
theorem test_decode_minlen : decode 0b00000000_00000000_00000000_00001100 = .ok .minlen := by decide
theorem test_decode_softReset :
    decode 0b00000000_00000000_00000000_00001101 = .ok .softReset := by decide

/-- R83, R84 and the rows of 95_test_vectors.md 2.6. -/
theorem test_decode_rejects :
    decode 0x0000000E = .error .reservedOpcode ∧ decode 0x000000FF = .error .reservedOpcode ∧
    decode 0x00010000 = .error .reservedBits ∧ decode 0x80000005 = .error .reservedBits ∧
    decode 0x00000101 = .error .immediate ∧ decode 0x0000010D = .error .immediate ∧
    decode 0x00000405 = .error .symbolBits := by decide

/-- R89: fewer or more bytes than one word are no command. -/
theorem test_decode_rejects_other_lengths :
    decodeBytes [0x03, 0, 0] = .error .notOneWord ∧
    decodeBytes [0x03, 0, 0, 0, 0] = .error .notOneWord ∧ decodeTableWord 32 0x205 = some (.rxFeed .mark) ∧
    decodeTableWord 32 0x0E = none := by decide

/-! ### One step of each command, results from 95_test_vectors.md -/

/-- 2.6: `NOP` after an error keeps `STICKY`. -/
theorem test_nop_keeps_sticky :
    after (exec .nop { State.reset with status := illegalStatus }) (fun t => statusWord t.status) =
      some 0x00000101 := by decide

/-- V1. -/
theorem test_encAm_vector1 :
    after (exec .encAm (withTv vector1)) (fun t => (amShown t.am, t.tcLen)) =
      some (symbols (vector1Am ++ [3]), 60) := by decide +kernel

/-- 2.2, the 61-second row: cells 59 and 60 are marks. -/
theorem test_encAm_leap :
    after (exec .encAm (withTv leapTv)) (fun t => (amCell t.am 56, amCell t.am 59, amCell t.am 60, t.tcLen))
      = some (.one, .mark, .mark, 61) := by decide +kernel

/-- V1. -/
theorem test_encPm_vector1 :
    after (exec .encPm { withTv vector1 with dstNext := 0b011011 }) (fun t => (pmShown t.pm, amCell t.am 0))
      = some (vector1Pm, .unset) := by decide +kernel

/-- P6, an extended minute: the window begins with `lfsr[1..12]`. -/
theorem test_encPm_extended :
    after (exec .encPm (withTv (tvOf 2012 186 17 10 3 400 false true)))
      (fun t => ((pmShown t.pm).take 12, pmCell t.pm 60)) =
      some ([1,1,1,1,1,1,0,0,1,1,0,1], .unset) := by decide +kernel

/-- P1, the buffer words. -/
theorem test_encTc_program1 :
    after (exec .encTc { withTv vector1 with dstNext := 0b011011 })
      (fun t => (readReg (.amBuf 0) t, readReg (.amBuf 3) t, readReg (.pmBuf 3) t)) =
      some (0x04080052, 0x03944109, 0x03145144) := by decide +kernel

/-- V3. -/
theorem test_decAm_vector3 :
    after (exec .decAm (withAm vector3Am))
      (fun t => (readReg .tvoDate t, readReg .tvoTime t, readReg .tvoUt1 t, readReg .status t)) =
      some (0x015E07E5, 0x00001E16, 0x0000FF9C, 0x00000009) := by decide +kernel

/-- 2.6: the reset buffer does not decode. -/
theorem test_decAm_reset :
    after (exec .decAm State.reset) (fun t => (t.tvo, statusWord t.status)) =
      some (TimeValue.zero, 0x00000001) := by decide +kernel

/-- R224, the row `2202`: a mark where none is expected. -/
theorem test_rxFeed_resync :
    after (exec (.rxFeed .mark) (withRx .inMinute [.mark, .zero])) (fun t => readReg .rxStat t) =
      some 0x00000002 := by decide +kernel

/-- 2.5: the last symbol of vector 3 emits it. -/
theorem test_rxFeed_emits :
    after (exec (.rxFeed .mark) (withRx .inMinute (symbols (vector3Am.take 59))))
      (fun t => (statusWord t.status, t.tcLen, sentMinute t.am, readReg .rxStat t)) =
      some (0x00000011, 60, symbols vector3Am, 0x00000002) := by decide +kernel

/-- 2.5. -/
theorem test_rxReset :
    after (exec .rxReset (withRx .inMinute (symbols (vector3Am.take 30)))) (fun t => readReg .rxStat t) =
      some 0x00000001 := by decide +kernel

/-- 2.1. -/
theorem test_hamming_vector1 :
    after (exec .hamming (withOpa 6578970)) (fun t => t.res) = some 18 := by decide +kernel

/-- 2.1. -/
theorem test_hamming_refuses :
    after (exec .hamming (withOpa (2 ^ 26))) (fun t => (t.res, statusWord t.status)) =
      some (0, 0x00000104) := by decide +kernel

/-- 2.1. -/
theorem test_lfsrRd_9 : after (exec (.lfsrRd 9) State.reset) (fun t => t.res) = some 1 := by
  decide +kernel

/-- 2.1. -/
theorem test_lfsrRd_254 : after (exec (.lfsrRd 254) State.reset) (fun t => t.res) = some 1 := by
  decide +kernel

/-- 2.1: the digit 9 in a two-bit group. -/
theorem test_bcdPack_999 : after (exec (.bcdPack 10) (withOpa 999)) (fun t => t.res) = some 0x199 := by
  decide +kernel

/-- 2.1. -/
theorem test_bcdPack_32 :
    after (exec (.bcdPack 32) (withOpa 4294967295)) (fun t => t.res) = some 0x94967295 := by
  decide +kernel

/-- 2.1. -/
theorem test_bcdUnpack_79 :
    after (exec (.bcdUnpack 7) (withOpa 0b1111001)) (fun t => (t.res, statusWord t.status)) =
      some (79, 0x00000009) := by decide +kernel

/-- 2.1: a digit above 9. -/
theorem test_bcdUnpack_none :
    after (exec (.bcdUnpack 4) (withOpa 0b1101)) (fun t => (t.res, statusWord t.status)) =
      some (0, 0x00000001) := by decide +kernel

/-- 2.1. -/
theorem test_moc_2099 :
    after (exec .moc (withTv (tvOf 2099 365 23 59 0 0 false false))) (fun t => t.res) =
      some 52595999 := by decide +kernel

/-- 2.1. -/
theorem test_moc_1999 :
    after (exec .moc (withTv (tvOf 1999 365 23 59 0 0 false false))) (fun t => t.res) =
      some 52594559 := by decide +kernel

/-- R125, the corner cases: 2015-181 23:59 with UT1 0 is 61 long. -/
theorem test_minlen_june :
    after (exec .minlen (withTv (tvOf 2015 181 23 59 0 0 true false))) (fun t => t.res) = some 61 := by
  decide +kernel

/-- R125: day 365 of a leap year ends no month. -/
theorem test_minlen_day_365 :
    after (exec .minlen (withTv (tvOf 2016 365 23 59 0 400 true true))) (fun t => t.res) = some 60 := by
  decide +kernel

/-- P4, its last lines. -/
theorem test_softReset :
    after (exec .softReset { withOpa 186 with status := badArgStatus })
      (fun t => (readReg .status t, readReg .opa t, readReg (.amBuf 3) t)) =
      some (0x00000001, 0, 0x03FFFFFF) := by decide +kernel

/-! ### The window: rows of 95_test_vectors.md 2.6 -/

theorem test_bus_reads_id :
    after (step (withPort [hostRead .id])) (fun t => t.response) = some (.data 0x57575642) := by
  decide +kernel

theorem test_bus_errors :
    faultOf (step (withPort
        [.access { op := .read, offset := 0x00#7, width := 8, enables := 0b0001#4 }])) =
      some (.busErr .width) ∧
    faultOf (step (withPort
        [.access { op := .read, offset := 0x2C#7, width := 32, enables := 0b1111#4 }])) =
      some (.busErr .unmapped) ∧
    faultOf (step (withPort [hostWrite .id 0])) = some (.busErr .readOnly) ∧
    faultOf (step (withPort
        [.access { op := .read, offset := 0x02#7, width := 32, enables := 0b1111#4 }])) =
      some (.busErr .misaligned) := by decide +kernel

theorem test_bus_illegal_word :
    after (step (withPort [hostWrite .cmd 0x0000000E])) (fun t => statusWord t.status) =
      some 0x00000102 := by decide +kernel

theorem test_fetch_word :
    after (step (State.reset.withFetchWord 32 0x00000908)) (fun t => (t.res, t.port)) = some (1, []) := by
  decide +kernel

/-! ### Witnesses: states and operands that meet the hypotheses of each statement together -/

theorem test_witness_EncodedCommandDecodesToItself :
    (Instr.lfsrRd 255).wellFormed = true ∧ (Instr.bcdPack 0).wellFormed = true ∧
      Instr.softReset.wellFormed = true := by decide

theorem test_witness_DecodedWordIsItsOnlyEncoding :
    decode 0x0000FF0A = .ok (.bcdUnpack 255) ∧ decode 0x00000305 = .ok (.rxFeed .unset) := by decide

/-- The write of `BCD_PACK 12` to `CMD`. -/
def packWrite : BusAccess :=
  { op := .write 0x00000C09, offset := 0x04#7, width := 32, enables := 0b1111#4 }

theorem test_witness_StepRunsTheDecodedCommand :
    ((withPort [.access packWrite]).port = .access packWrite :: [] ∧
      decode 0x00000C09 = .ok (.bcdPack 12)) ∧
    (decode (BitVec.ofNat 32 0x0D) = .ok .softReset ∧ 0x0D < 2 ^ 32) :=
  ⟨⟨rfl, by decide⟩, by decide⟩

/-- Words at the edges of each condition of R241, with `op` and `imm` as the statement names them. -/
theorem test_witness_IllegalExactlyOnTheWordsOfTheRule :
    (0x00010000 / 65536 ≠ 0) ∧ (0x0E ≤ 0x0E % 256) ∧
    (0x010D % 256 ≤ 0x0D ∧ 0x010D / 256 % 256 ≠ 0) ∧ (0x0104 % 256 ≤ 0x04 ∧ 0x0104 / 256 % 256 ≠ 0) ∧
    (0x0405 % 256 = 0x05 ∧ 0x0405 / 256 % 256 / 4 ≠ 0) ∧
    ¬(0x0305 / 65536 ≠ 0 ∨ 0x0E ≤ 0x0305 % 256 ∨
      ((0x0305 % 256 ≤ 0x04 ∨ 0x0305 % 256 = 0x06 ∨ 0x0305 % 256 = 0x07 ∨
        (0x0B ≤ 0x0305 % 256 ∧ 0x0305 % 256 ≤ 0x0D)) ∧ 0x0305 / 256 % 256 ≠ 0) ∨
      (0x0305 % 256 = 0x05 ∧ 0x0305 / 256 % 256 / 4 ≠ 0)) := by decide

theorem test_witness_BusErrorExactlyWhenTheWindowRejects_accepted :
    accessAccepted { op := .read, offset := 0x5C#7, width := 32, enables := 0b1111#4 } ∧
    accessAccepted { op := .write 7, offset := 0x4C#7, width := 32, enables := 0b1111#4 } :=
  ⟨⟨rfl, rfl, by decide, by decide, by decide, by decide, .inl rfl⟩,
    ⟨rfl, rfl, by decide, by decide, by decide, by decide, .inr ⟨⟨7, rfl⟩, by decide⟩⟩⟩

/-- One rejected access for each clause of R243: width, byte enables, alignment, the three unmapped
stretches, a read-only register, and an atomic access (R71). -/
theorem test_witness_BusErrorExactlyWhenTheWindowRejects_rejected :
    ¬accessAccepted { op := .read, offset := 0x5C#7, width := 16, enables := 0b1111#4 } ∧
    ¬accessAccepted { op := .read, offset := 0x5C#7, width := 32, enables := 0b0111#4 } ∧
    ¬accessAccepted { op := .read, offset := 0x5D#7, width := 32, enables := 0b1111#4 } ∧
    ¬accessAccepted { op := .read, offset := 0x60#7, width := 32, enables := 0b1111#4 } ∧
    ¬accessAccepted { op := .read, offset := 0x2C#7, width := 32, enables := 0b1111#4 } ∧
    ¬accessAccepted { op := .read, offset := 0x3C#7, width := 32, enables := 0b1111#4 } ∧
    ¬accessAccepted { op := .write 0, offset := 0x50#7, width := 32, enables := 0b1111#4 } ∧
    ¬accessAccepted { op := .atomic, offset := 0x20#7, width := 32, enables := 0b1111#4 } := by
  simp [accessAccepted]

theorem test_witness_PortServesInOrder :
    nextOf (step (withPort [hostRead .id])) = true ∧ State.reset.port = [] := by decide +kernel

theorem test_witness_ReadAnswersTheRegisterAndChangesNothing :
    (withPort [hostRead (.pmBuf 3)]).port = hostRead (.pmBuf 3) :: [] := rfl

theorem test_witness_WriteStoresTheNonReservedBitsOnly :
    storedBits (.amBuf 3) = some 0x03FFFFFF ∧ storedBits (.amBuf 2) = some 0xFFFFFFFF ∧
    storedBits .tvDate = some 0x01FF3FFF ∧
    (withPort [hostWrite (.amBuf 3) 0xFFFFFFFF]).port = hostWrite (.amBuf 3) 0xFFFFFFFF :: [] := by
  decide +kernel

theorem test_witness_BufferWriteReplacesTheCellsOfTheWord :
    (withPort [hostWrite (.amBuf 3) 0x1B]).port = hostWrite (.amBuf 3) 0x1B :: [] ∧
      60 < 61 ∧ 60 / 16 = (3 : Fin 4).val ∧ 47 / 16 ≠ (3 : Fin 4).val := by decide +kernel

theorem test_witness_BufferCellsReadAtTheirBits :
    (12 < 16 ∧ 16 * (3 : Fin 4).val + 12 < 61) ∧ (13 < 16 ∧ 61 ≤ 16 * (3 : Fin 4).val + 13) := by
  decide

theorem test_witness_SetTvLoadsTheTimeValue :
    (withPort (setTvEvents vector1)).port = setTvEvents vector1 ++ [] := by decide +kernel

theorem test_witness_LoadAmLoadsTheSymbols :
    (symbols (vector3Am ++ [2])).length ≤ 61 ∧ ([] : List AmSym).length ≤ 61 ∧
      (withPort (loadAmEvents (symbols vector3Am))).port = loadAmEvents (symbols vector3Am) ++ [] := by
  decide +kernel

theorem test_witness_FeedsRunTheSymbolsInOrder :
    (withPort (feedEvents (symbols vector3Am))).port = feedEvents (symbols vector3Am) ++ [] ∧
      symbols vector3Am ≠ [] ∧
      nextOf (feedAll (symbols vector3Am) (withPort [])) = true := by decide +kernel

theorem test_witness_HardwareResetSetsEveryValue :
    (withPort [.hardReset]).port = .hardReset :: [] := rfl

/-- Legal operands at the edges of the table of R242. -/
theorem test_witness_BadArgExactlyWhenTheOperandsFail_legal :
    operandsLegal .encTc (withTv (tvOf 9999 365 23 59 3 (-900) true false)) ∧
    operandsLegal .moc (withTv (tvOf 1900 1 0 0 0 900 false false)) ∧
    operandsLegal .encAm (withTv leapTv) ∧ operandsLegal (.rxFeed .mark) State.reset ∧
    operandsLegal (.lfsrRd 254) State.reset ∧ operandsLegal (.bcdPack 32) State.reset ∧
    operandsLegal (.bcdUnpack 1) State.reset ∧ operandsLegal .decAm State.reset := by
  refine ⟨?_, ?_, ?_, ?_, ?_, ?_, ?_, trivial⟩
  · show legalTv _; decide +kernel
  · show legalTv _; decide +kernel
  · show legalTv _; decide +kernel
  · show AmSym.mark ≠ .unset; decide
  · show 254 ≤ 254; decide
  · show 1 ≤ 32 ∧ 32 ≤ 32; decide
  · exact ⟨by decide, fun k _ => by simp [State.reset]⟩

/-- Failing operands at the edges of the table of R242. -/
theorem test_witness_BadArgExactlyWhenTheOperandsFail_failing :
    ¬operandsLegal .encAm (withTv (tvOf 1899 1 0 0 0 0 false false)) ∧
    ¬operandsLegal .encPm (withTv (tvOf 2015 366 0 0 0 0 false false)) ∧
    ¬operandsLegal .encTc (withTv (tvOf 2015 0 0 0 0 0 false false)) ∧
    ¬operandsLegal .moc (withTv (tvOf 2015 1 24 60 0 0 false false)) ∧
    ¬operandsLegal .minlen (withTv (tvOf 2015 1 0 0 0 901 false false)) ∧
    ¬operandsLegal (.rxFeed .unset) State.reset ∧ ¬operandsLegal .hamming (withOpa (2 ^ 26)) ∧
    ¬operandsLegal (.lfsrRd 255) State.reset ∧ ¬operandsLegal (.bcdPack 33) State.reset ∧
    ¬operandsLegal (.bcdUnpack 0) State.reset ∧ ¬operandsLegal (.bcdUnpack 4) (withOpa 0b10000) := by
  refine ⟨?_, ?_, ?_, ?_, ?_, ?_, ?_, ?_, ?_, ?_, ?_⟩
  · show ¬legalTv _; decide +kernel
  · show ¬legalTv _; decide +kernel
  · show ¬legalTv _; decide +kernel
  · show ¬legalTv _; decide +kernel
  · show ¬legalTv _; decide +kernel
  · exact fun h => h rfl
  · exact fun h => absurd (h 26 (by decide)) (by decide)
  · show ¬255 ≤ 254; decide
  · show ¬(1 ≤ 33 ∧ 33 ≤ 32); decide
  · exact fun h => absurd h.1 (by decide)
  · exact fun h => absurd (h.2 4 (by decide)) (by decide)

theorem test_witness_EveryCommandUpdatesStatus :
    (after (exec .decAm (withAm vector3Am)) (fun t => t.status.valid) = some true ∧
      Instr.decAm ≠ .softReset) ∧
    (after (exec (.rxFeed .mark) (withRx .inMinute (symbols (vector3Am.take 59))))
        (fun t => t.status.emit) = some true ∧ Instr.rxFeed .mark ≠ .softReset) := by decide +kernel

theorem test_witness_StickyStaysUntilReset :
    after (step { withPort [.hardReset] with status := illegalStatus }) (fun t => t.status.sticky) =
      some false ∧
    after (step { withPort [hostCommand .softReset] with status := illegalStatus })
      (fun t => t.status.sticky) = some false ∧ illegalStatus.sticky = true := by decide +kernel

/-- A run of three interactions without an error. -/
theorem test_witness_StickyAtTheEndShowsTheWholeRun :
    after (Sys2Proof.core.run 3 (withPort [hostWrite .opa 7, hostCommand .hamming, hostRead .res]))
      (fun t => t.status.sticky) = some false ∧
    ∀ e ∈ [hostWrite .opa 7, hostCommand .hamming, hostRead .res],
      e ≠ .hardReset ∧ e ≠ hostCommand .softReset := by decide +kernel

theorem test_witness_OnlyCommandsWriteStatus :
    nextOf (step (withPort [hostRead .status])) = true ∧
    nextOf (step (withPort [hostWrite .opa 5])) = true ∧ (0x20#7 : BitVec 7) ≠ 0x04#7 := by
  decide +kernel

theorem test_witness_CommandsWriteOnlyTheirState :
    (after (exec .hamming (withOpa 1)) (fun t => t.res) ≠ some State.reset.res) ∧
    (after (exec .decAm (withAm vector3Am)) (fun t => t.tvo) ≠ some State.reset.tvo) ∧
    (after (exec .encPm (withTv vector1)) (fun t => t.tcLen) ≠ some State.reset.tcLen) ∧
    (after (exec (.rxFeed .mark) State.reset) (fun t => t.rxState) ≠ some State.reset.rxState) := by
  decide +kernel

theorem test_witness_HammingComputesTheRowParities :
    (26 ≤ 26 ∧ (withOpa (2 ^ 26)).opa.getLsbD 26 = true) ∧
    (26 ≤ 31 ∧ (withOpa (2 ^ 31)).opa.getLsbD 31 = true) ∧
    ∀ k, 26 ≤ k → (withOpa 1).opa.getLsbD k = false := by
  refine ⟨by decide, by decide, fun k hk => ?_⟩
  have : k ≠ 0 := by omega
  simp [withOpa, State.reset, this]

theorem test_witness_HammingTellsSingleBitChangesApart :
    2 ^ 26 - 1 < 2 ^ 26 ∧ 25 < 26 ∧ 0 < 26 ∧ 25 ≠ 0 := by decide

theorem test_witness_LfsrReadGivesTheStreamBit : 254 ≤ 254 ∧ 0 ≤ 254 ∧ 254 < 255 := by decide

theorem test_witness_BcdPackGivesTheDigits :
    (1 ≤ 1 ∧ 1 ≤ 32) ∧ (1 ≤ 32 ∧ 32 ≤ 32) ∧ ¬(1 ≤ 0 ∧ 0 ≤ 32) ∧ ¬(1 ≤ 33 ∧ 33 ≤ 32) := by decide

/-- Legal with every digit, legal with a digit above 9, and illegal in each way. -/
theorem test_witness_BcdUnpackSumsTheDigits :
    (((1 ≤ 32 ∧ 32 ≤ 32) ∧ ∀ k, 32 ≤ k → (withOpa 0x99999999).opa.getLsbD k = false) ∧
      ∀ j < (32 + 3) / 4,
        (withOpa 0x99999999).opa.toNat / 2 ^ (4 * j) % 2 ^ min 4 (32 - 4 * j) ≤ 9) ∧
    (((1 ≤ 4 ∧ 4 ≤ 32) ∧ ∀ k, 4 ≤ k → (withOpa 10).opa.getLsbD k = false) ∧
      ∃ j < (4 + 3) / 4, 9 < (withOpa 10).opa.toNat / 2 ^ (4 * j) % 2 ^ min 4 (4 - 4 * j)) ∧
    ¬(1 ≤ 0 ∧ 0 ≤ 32) ∧ ¬(1 ≤ 33 ∧ 33 ≤ 32) ∧
    ¬∀ k, 4 ≤ k → (withOpa 16).opa.getLsbD k = false :=
  ⟨⟨⟨by decide, (toNat_lt_iff _ 32).1 (by decide)⟩, by decide +kernel⟩,
    ⟨⟨by decide, (toNat_lt_iff _ 4).1 (by decide)⟩, 0, by decide, by decide⟩,
    by decide, by decide, fun h => absurd (h 4 (by decide)) (by decide)⟩

theorem test_witness_BcdUnpackInvertsPack :
    (79 < 2 ^ (7 % 4) * 10 ^ (7 / 4) ∧ 0 < 2 ^ (0 % 4) * 10 ^ (0 / 4)) ∧
    (0x79 < 2 ^ 7 ∧ bcdUnpack 0x79 7 = some 79) := by decide +kernel

theorem test_witness_MocCountsTheMinutes :
    legalTv (withTv (tvOf 9999 366 23 59 0 (-900) false true)).tv ∧
    legalTv (withTv (tvOf 1900 1 0 0 0 900 false false)).tv ∧
    ¬legalTv (withTv (tvOf 10000 1 0 0 0 0 false false)).tv := by decide +kernel

theorem test_witness_MinuteOfCenturyFits :
    legalTv (tvOf 2096 366 23 59 0 0 false true) ∧
    ((tvOf 2096 366 23 59 0 0 false true).days.toNat = 366 ∧
      (tvOf 2096 366 23 59 0 0 false true).year.toNat % 4 = 0 ∧
      (tvOf 2096 366 23 59 0 0 false true).year.toNat % 100 ≠ 0) := by decide +kernel

/-- Each clause: an insertion, a deletion, the day before the month's end, and an illegal `TV`. -/
theorem test_witness_MinlenGivesTheMinuteLength :
    (legalTv leapTv ∧ leapMinute leapTv ∧ insertion leapTv) ∧
    (legalTv shortTv ∧ leapMinute shortTv ∧ ¬insertion shortTv) ∧
    (legalTv (tvOf 2016 365 23 59 0 0 true true) ∧ ¬leapMinute (tvOf 2016 365 23 59 0 0 true true)) ∧
    ¬legalTv TimeValue.zero := by decide +kernel

theorem test_witness_MinlenGivesTheMinuteLength_both_values :
    insertionWhen true leapTv ∧ ¬insertionWhen true shortTv ∧
    insertionWhen false shortTv ∧ ¬insertionWhen false leapTv := by
  simp only [insertionWhen, if_true, Bool.false_eq_true, if_false]
  decide +kernel

theorem test_witness_EncAmWritesEveryCell :
    legalTv leapTv ∧ legalTv shortTv ∧ legalTv vector1 ∧ ¬legalTv TimeValue.zero := by decide +kernel

/-- The regular minutes beside the extended ones. -/
theorem test_witness_EncPmWritesTheRegularMinute :
    ∀ m ∈ [9, 16, 39, 46, 59], legalTv (tvOf 2020 1 23 m 0 0 true true) ∧
      ¬((10 ≤ (tvOf 2020 1 23 m 0 0 true true).minute.toNat ∧
          (tvOf 2020 1 23 m 0 0 true true).minute.toNat ≤ 15) ∨
        (40 ≤ (tvOf 2020 1 23 m 0 0 true true).minute.toNat ∧
          (tvOf 2020 1 23 m 0 0 true true).minute.toNat ≤ 45)) := by decide +kernel

/-- The first and last extended minutes of each half hour. -/
theorem test_witness_EncPmWritesTheExtendedWindow :
    ∀ m ∈ [10, 15, 40, 45], legalTv (tvOf 2020 1 23 m 0 0 false true) ∧
      ((10 ≤ (tvOf 2020 1 23 m 0 0 false true).minute.toNat ∧
          (tvOf 2020 1 23 m 0 0 false true).minute.toNat ≤ 15) ∨
        (40 ≤ (tvOf 2020 1 23 m 0 0 false true).minute.toNat ∧
          (tvOf 2020 1 23 m 0 0 false true).minute.toNat ≤ 45)) := by decide +kernel

/-- Each DST code and, for codes 1 and 2, each band of hours at its edges. -/
theorem test_witness_SeqnoFollowsTheTable :
    (tvOf 2020 1 0 59 0 0 false true).minute.toNat ≤ 59 ∧ (tvOf 2020 1 0 59 0 0 false true).dst = 0 ∧
    (tvOf 2020 1 0 30 3 0 false true).dst = 3 ∧
    (∀ d ∈ [1, 2], (tvOf 2020 1 3 0 d 0 false true).hour.toNat < 4 ∧
      4 ≤ (tvOf 2020 1 4 0 d 0 false true).hour.toNat ∧
      (tvOf 2020 1 10 0 d 0 false true).hour.toNat < 11 ∧
      11 ≤ (tvOf 2020 1 11 0 d 0 false true).hour.toNat ∧
      ((tvOf 2020 1 11 0 d 0 false true).dst = 1 ∨ (tvOf 2020 1 11 0 d 0 false true).dst = 2)) := by
  decide +kernel

theorem test_witness_EncTcIsBothChannels :
    legalTv (withTv vector1).tv ∧ ¬legalTv State.reset.tv := by decide +kernel

theorem test_witness_EncPmRefusesAnIllegalTimeValue : ¬legalTv State.reset.tv := by decide +kernel

theorem test_witness_DecAmDecodesExactlyTheValidMinutes :
    decodable (withAm vector3Am).am ∧ ¬decodable State.reset.am := by
  unfold decodable
  decide +kernel

theorem test_witness_EncodedMinuteDecodesBack :
    (legalTv (withTv vector1).tv ∧ lengthOf vector1 = 60) ∧
    (legalTv (withTv leapTv).tv ∧ lengthOf leapTv = 61) ∧
    (legalTv (withTv shortTv).tv ∧ lengthOf shortTv = 59) := by decide +kernel

/-- One receiver state for each clause, in the order of the statement. -/
theorem test_witness_RxFeedFollowsTheTransitions :
    (withRx .unsynced []).rxState = .unsynced ∧ AmSym.mark ≠ .unset ∧ AmSym.one ≠ .mark ∧
    (withRx .oneMark []).rxState = .oneMark ∧ (withRx .twoMarks []).rxState = .twoMarks ∧
    ((withRx .inMinute (symbols (vector3Am.take 10))).rxAcc.length ∉ [0, 9, 19, 29, 39, 49, 59] ∧
      (withRx .inMinute (symbols (vector3Am.take 10))).rxAcc.getLast? = some .mark) ∧
    ((withRx .inMinute [.mark, .zero]).rxAcc.length ∉ [0, 9, 19, 29, 39, 49, 59] ∧
      (withRx .inMinute [.mark, .zero]).rxAcc.getLast? ≠ some .mark) ∧
    (withRx .inMinute (symbols (vector3Am.take 9))).rxAcc.length ∈ [0, 9, 19, 29, 39, 49, 59] ∧
    (withRx .inMinute (symbols (vector3Am.take 54))).rxAcc.length ∈
      [4, 10, 11, 14, 20, 21, 24, 34, 35, 44, 54] ∧
    (withRx .inMinute (symbols (vector3Am.take 49))).rxAcc.length ≠ 59 ∧
    ((withRx .inMinute (symbols (vector3Am.take 58))).rxAcc.length ∉ [0, 9, 19, 29, 39, 49, 59] ∧
      (withRx .inMinute (symbols (vector3Am.take 58))).rxAcc.length ∉
        [4, 10, 11, 14, 20, 21, 24, 34, 35, 44, 54]) ∧
    (withRx .inMinute (symbols (vector3Am.take 59))).rxAcc.length = 59 := by decide +kernel

theorem test_witness_EmittedMinuteHasTheSkeleton :
    receiverInv (withRx .inMinute (symbols (vector3Am.take 59))) ∧
    after (exec (.rxFeed .mark) (withRx .inMinute (symbols (vector3Am.take 59))))
      (fun t => t.status.emit) = some true := by
  unfold receiverInv skeletonHolds skeletonAdmits
  decide +kernel

theorem test_witness_ReceiverLocksOnFromEveryState :
    (symbols vector3Am).length = 60 ∧ skeletonHolds (symbols vector3Am) ∧ (1 ≤ 1 ∧ 1 < 60) ∧
      (1 ≤ 59 ∧ 59 < 60) := by
  unfold skeletonHolds skeletonAdmits
  decide +kernel

theorem test_witness_TransmittedMinuteIsReceivedAndDecoded :
    (legalTv leapTv ∧ 60 ≤ lengthOf leapTv) ∧ (legalTv vector1 ∧ 60 ≤ lengthOf vector1) := by
  decide +kernel

/-- A state inside a minute that meets the invariant, and a step from it. -/
theorem test_witness_StepKeepsTheInvariant :
    Inv { withRx .inMinute (symbols (vector3Am.take 59)) with
      port := [hostCommand (.rxFeed .mark)] } ∧
    nextOf (step { withRx .inMinute (symbols (vector3Am.take 59)) with
      port := [hostCommand (.rxFeed .mark)] }) = true := by
  refine ⟨⟨?_, ?_, ?_, ?_, ?_⟩, ?_⟩
  · unfold receiverInv skeletonHolds skeletonAdmits
    decide +kernel
  · exact .inl rfl
  · unfold statusInv
    decide +kernel
  · exact .inl rfl
  · unfold pmInv
    decide +kernel
  · decide +kernel

theorem test_witness_StepOfAnIllegalWordChangesStatusOnly :
    (withPort [hostWrite .cmd 0x0E, hostRead .status]).port =
      .access { op := .write 0x0E, offset := 0x04#7, width := 32, enables := 0b1111#4 } ::
        [hostRead .status] ∧
    0x0E ≤ (0x0E : Word).toNat % 256 ∧ (0x00010000 : Word).toNat / 65536 ≠ 0 ∧
    ((0x010D : Word).toNat % 256 ≤ 0x0D ∧ (0x010D : Word).toNat / 256 % 256 ≠ 0) ∧
    ((0x0405 : Word).toNat % 256 = 0x05 ∧ (0x0405 : Word).toNat / 256 % 256 / 4 ≠ 0) := by
  decide +kernel

theorem test_witness_RunServesTheAccessesInOrder :
    (withPort [hostWrite .opa 7, hostRead .opa, hostRead .id]).port =
      [hostWrite .opa 7, hostRead .opa] ++ [hostRead .id] := by decide

/-- Each alternative of the premise has its state: reset itself, and a state that is not at reset. -/
theorem test_witness_CleanEntryMeetsTheInvariant :
    (atReset State.reset ∧ cleanEntry State.reset) ∧
    ¬atReset { State.reset with opa := 7 } ∧ cleanEntry { State.reset with opa := 7 } := by
  refine ⟨⟨rfl, .inl rfl, rfl⟩, ?_, .inr ⟨[hostWrite .opa 7], ?_⟩, rfl⟩
  · unfold atReset
    decide +kernel
  · exact ⟨{ State.reset with opa := 7, response := .done }, rfl, rfl⟩

theorem test_witness_ErrorFreeRunEndsInACleanEntry :
    cleanEntry (withPort [hostWrite .opa 7, hostCommand .hamming]) ∧
    after (Sys2Proof.core.run 2 (withPort [hostWrite .opa 7, hostCommand .hamming]))
      (fun t => t.status.sticky) = some false :=
  ⟨⟨.inl rfl, rfl⟩, by decide +kernel⟩

end Sys2Proof.Tests
end

section
/-! Family 00_scope.md. The port is a queue: a step serves its oldest interaction and leaves the
others pending. -/

namespace Sys2Proof.Machine

/-! ### A step, by what is pending -/

/-- R5: with nothing pending the block stays as it is. -/
theorem step_of_port_nil {s : State} (hp : s.port = []) : step s = .next s := by
  simp only [step, servePort, hp]

/-- R69: the oldest interaction is served from the state that no longer holds it. -/
theorem step_of_port_cons {s : State} {e : HostEvent} {rest : List HostEvent}
    (hp : s.port = e :: rest) : step s = serveEvent e (takeFromPort rest s) := by
  simp only [step, servePort, hp]

/-! ### Serving an interaction leaves the others pending -/

/-- An outcome changed by `f` has a next state exactly when the outcome it comes from has one. -/
theorem mapNext_eq_next_iff {f : State → State} {o : Host.Outcome State Fault Refusal} {t : State} :
    mapNext f o = .next t ↔ ∃ u, o = .next u ∧ f u = t := by
  cases o <;> simp

/-- No interaction adds to the port or takes from it: by `serveEvent_overPort` it answers the same
state whatever stands behind it, with that left pending. -/
theorem serveEvent_takeFromPort_port {e : HostEvent} {rest : List HostEvent} {s t : State}
    (h : serveEvent e (takeFromPort rest s) = .next t) : t.port = rest := by
  rw [serveEvent_overPort e rest rest s] at h
  obtain ⟨u, -, rfl⟩ := mapNext_eq_next_iff.1 h
  rfl

/-- A step that does not fault takes exactly the oldest interaction, if there is one. -/
theorem step_next_port {s t : State} (h : step s = .next t) : t.port = s.port.tail := by
  cases hp : s.port with
  | nil =>
    rw [step_of_port_nil hp] at h
    cases h
    exact hp
  | cons e rest =>
    rw [step_of_port_cons hp] at h
    exact serveEvent_takeFromPort_port h

/-- Settles O9: both parts by the case split on the port, whose one non-trivial case is that no
interaction touches what stands behind it. -/
theorem portServesInOrder : Obligations.PortServesInOrder :=
  ⟨fun _ _ => step_next_port, fun _ => step_of_port_nil⟩

end Sys2Proof.Machine
end

section
/-! Family 10_state.md, the layer its proofs share: what a command does, and what serving an access
does, each said once. -/

namespace Sys2Proof.Machine

/-! ### What a command does -/

/-- The six commands that expose a primitive (R100 to R125), the only ones that answer in `RES`. -/
def RunsPrimitive (i : Instr) : Prop :=
  i = .hamming ∨ (∃ index, i = .lfsrRd index) ∨ (∃ n, i = .bcdPack n) ∨ (∃ n, i = .bcdUnpack n) ∨
    i = .moc ∨ i = .minlen

/-- `CommandEffect s i t`: `t` is one of the ways command `i` can leave the state `s`. `exec_effect`
says that `exec` does nothing else. -/
inductive CommandEffect (s : State) : Instr → State → Prop
  /-- the operand check failed, R242 -/
  | refused {i : Instr} (h : i ≠ .softReset) : CommandEffect s i (raiseError .badArg s)
  | nop : CommandEffect s .nop (complete s false false)
  /-- a primitive answered `res`, R105 to R125 -/
  | computed {i : Instr} (res : Word) (valid : Bool) (hi : RunsPrimitive i)
      (hv : valid = true → ∃ n, i = .bcdUnpack n) :
      CommandEffect s i (complete { s with res := res } valid false)
  /-- an encoder wrote both channels and the length, R140, R160, R177 -/
  | encoded {i : Instr} (am : AmBuf) (pm : PmBuf) (hi : i = .encAm ∨ i = .encPm ∨ i = .encTc)
      (hpm : pm = clearPm ∨ pm = pmEncode s.tv s.dstNext (lengthOf s.tv)) :
      CommandEffect s i
        (complete { s with am := am, pm := pm, tcLen := BitVec.ofNat 8 (lengthOf s.tv) } false false)
  /-- the minute decoded, R200 -/
  | decoded (tv : TimeValue) (h : decAm s.am = some tv) :
      CommandEffect s .decAm (complete { s with tvo := tv } true false)
  /-- the minute did not decode, R200 and R244 -/
  | undecoded : CommandEffect s .decAm (complete s false false)
  /-- the receiver took a symbol and emitted nothing, R212 -/
  | fed {sym : AmSym} (h : sym ≠ .unset) (hq : (rxStep s.rxState s.rxAcc sym).emitted = none) :
      CommandEffect s (.rxFeed sym)
        (complete { s with
          rxState := (rxStep s.rxState s.rxAcc sym).state
          rxAcc := (rxStep s.rxState s.rxAcc sym).acc } false false)
  /-- the receiver took the last symbol of a minute and emitted it, R219 -/
  | emitted {sym : AmSym} (h : sym ≠ .unset) (minute : List AmSym)
      (he : (rxStep s.rxState s.rxAcc sym).emitted = some minute) :
      CommandEffect s (.rxFeed sym)
        (complete (emitMinute minute { s with
          rxState := (rxStep s.rxState s.rxAcc sym).state
          rxAcc := (rxStep s.rxState s.rxAcc sym).acc }) false true)
  | rxReset :
      CommandEffect s .rxReset (complete { s with rxState := .unsynced, rxAcc := [] } false false)
  | softReset : CommandEffect s .softReset { resetBlock s with status := statusAfterSoftReset }

/-- A checked command has its own effect, or is refused. -/
theorem CommandEffect.of_checked {i : Instr} {legal : Bool} {s effect t : State}
    (h : checked legal s effect = .next t) (hi : i ≠ .softReset)
    (heff : legal = true → CommandEffect s i effect) : CommandEffect s i t := by
  obtain ⟨hl, rfl⟩ | ⟨-, rfl⟩ := checked_cases h
  · exact heff hl
  · exact .refused hi

/-- A transition without an emission moves the receiver alone. -/
theorem applyRx_of_emitted_none {r : RxResult} (h : r.emitted = none) (s : State) :
    applyRx r s = { s with rxState := r.state, rxAcc := r.acc } := by
  simp only [applyRx, h]

/-- A transition with an emission moves the receiver and emits the minute. -/
theorem applyRx_of_emitted_some {r : RxResult} {minute : List AmSym} (h : r.emitted = some minute)
    (s : State) :
    applyRx r s = emitMinute minute { s with rxState := r.state, rxAcc := r.acc } := by
  simp only [applyRx, h]

/-- `DEC_AM` writes the decoded value, or nothing but `STATUS`. -/
theorem execDecAm_effect {s t : State} (h : execDecAm s = .next t) : CommandEffect s .decAm t := by
  unfold execDecAm at h
  split at h
  next tv htv =>
    cases h
    exact .decoded tv htv
  next =>
    cases h
    exact .undecoded

/-- `RX_FEED` moves the receiver, and emits where the transition does. -/
theorem execRxFeed_effect {sym : AmSym} {s t : State} (h : execRxFeed sym s = .next t) :
    CommandEffect s (.rxFeed sym) t := by
  refine .of_checked h (by simp) fun hl => ?_
  have hsym : sym ≠ .unset := by simpa [symbolLegal] using hl
  cases he : (rxStep s.rxState s.rxAcc sym).emitted with
  | none =>
    rw [applyRx_of_emitted_none he]
    exact .fed hsym he
  | some minute =>
    rw [applyRx_of_emitted_some he]
    exact .emitted hsym minute he

/-- Every command that answers has one of the effects listed. -/
theorem exec_effect {i : Instr} {s t : State} (h : exec i s = .next t) : CommandEffect s i t := by
  cases i with
  | nop => cases h; exact .nop
  | encAm => exact .of_checked h (by simp) fun _ => .encoded _ _ (by simp) (.inl rfl)
  | encPm => exact .of_checked h (by simp) fun _ => .encoded _ _ (by simp) (.inr rfl)
  | encTc => exact .of_checked h (by simp) fun _ => .encoded _ _ (by simp) (.inr rfl)
  | decAm => exact execDecAm_effect h
  | rxFeed sym => exact execRxFeed_effect h
  | rxReset => cases h; exact .rxReset
  | hamming =>
    exact .of_checked h (by simp) fun _ => .computed _ _ (by simp [RunsPrimitive]) (by simp)
  | lfsrRd index =>
    exact .of_checked h (by simp) fun _ => .computed _ _ (by simp [RunsPrimitive]) (by simp)
  | bcdPack n =>
    exact .of_checked h (by simp) fun _ => .computed _ _ (by simp [RunsPrimitive]) (by simp)
  | bcdUnpack n =>
    exact .of_checked h (by simp) fun _ => .computed _ _ (by simp [RunsPrimitive]) (by simp)
  | moc =>
    exact .of_checked h (by simp) fun _ => .computed _ _ (by simp [RunsPrimitive]) (by simp)
  | minlen =>
    exact .of_checked h (by simp) fun _ => .computed _ _ (by simp [RunsPrimitive]) (by simp)
  | softReset => cases h; exact .softReset

/-! ### What serving an access does -/

/-- R61: `CMD` stands at offset 0x04 only. -/
theorem eq_of_regAt_cmd {n : Nat} (h : regAt n = some .cmd) : n = 0x04 := by
  unfold regAt at h
  split at h <;> simp_all

/-- An access the window accepts runs a command, or changes no more than the input registers, `AM` and
the recorded answer (R68). -/
theorem serveAccess_effect {a : BusAccess} {s t : State} (h : serveAccess a s = .next t) :
    (∃ w, a.op = .write w ∧ a.offset = 0x04#7 ∧ runCommand w s = .next t) ∨
      t = { s with
        tv := t.tv, dstNext := t.dstNext, opa := t.opa, am := t.am, response := t.response } := by
  obtain ⟨r, hacc, ⟨-, rfl⟩ | ⟨w, hop, hw⟩⟩ := serveAccess_next h
  · exact .inr rfl
  · obtain ⟨rfl, hrun⟩ | hstore := writeReg_next hw
    · obtain ⟨-, -, hreg, -⟩ := acceptAccess_ok hacc
      exact .inl ⟨w, hop, BitVec.eq_of_toNat_eq (eq_of_regAt_cmd hreg), hrun⟩
    · obtain ⟨-, rfl⟩ | ⟨-, rfl⟩ | ⟨-, rfl⟩ | ⟨-, rfl⟩ | ⟨-, rfl⟩ | ⟨k, -, rfl⟩ := hstore <;>
        exact .inr rfl

/-- A step that finds a write to a writable register pending is that register write. -/
theorem step_of_hostWrite {s : State} {rest : List HostEvent} {r : Reg} {v : Word}
    (hp : s.port = hostWrite r v :: rest) (hr : regWritable r = true) :
    step s = writeReg r v (takeFromPort rest s) := by
  rw [step_of_port_cons hp, serveEvent_hostWrite r v _ hr]

end Sys2Proof.Machine
end

section
/-! Family 10_state.md: `STATUS`, the frames of the commands, and the command write. -/

namespace Sys2Proof.Machine

/-- A `CMD` word that decodes runs its command (R88). -/
theorem runCommand_of_decode {w : Word} {i : Instr} (h : decode w = .ok i) (s : State) :
    runCommand w s = exec i s := by
  simp only [runCommand, h]

/-- A step that finds a decodable command word pending runs the command. -/
theorem step_of_command {s : State} {rest : List HostEvent} {w : Word} {i : Instr}
    (hp : s.port = hostWrite .cmd w :: rest) (hd : decode w = .ok i) :
    step s = exec i (takeFromPort rest s) := by
  rw [step_of_hostWrite hp rfl]
  exact runCommand_of_decode hd _

/-- Settles O5: `withFetchWord` puts at the head of the port the very write that the first part
speaks of. -/
theorem stepRunsTheDecodedCommand : Obligations.StepRunsTheDecodedCommand := by
  refine ⟨fun s rest w i hp hd => step_of_command hp hd, fun s w i hd hw => ?_⟩
  have hport : (s.withFetchWord 32 w).port = hostWrite .cmd (BitVec.ofNat 32 w) :: s.port := by
    rw [State.withFetchWord, Nat.mod_eq_of_lt hw, commandPending_port]
  exact step_of_command hport hd

/-- Settles O26: an access that is no `CMD` write has no way to reach a command. -/
theorem onlyCommandsWriteStatus : Obligations.OnlyCommandsWriteStatus := by
  intro s t a rest hp hno h
  rw [step_of_port_cons hp] at h
  obtain ⟨w, hop, hoff, -⟩ | hframe := serveAccess_effect h
  · rcases hno with hread | hother
    · simp [hop] at hread
    · exact absurd hoff hother
  · rw [hframe, takeFromPort_status]

/-- Settles O23: one case per effect of a command; in each `STATUS` is `statusAfter` of the old one. -/
theorem everyCommandUpdatesStatus : Obligations.EveryCommandUpdatesStatus := by
  intro i s t h hi
  cases exec_effect h with
  | refused => simp [statusAfter]
  | nop => simp [statusAfter]
  | computed res valid _ hv => simpa [statusAfter] using fun hvalid => Or.inr (hv hvalid)
  | encoded => simp [statusAfter]
  | decoded => simp [statusAfter]
  | undecoded => simp [statusAfter]
  | fed => simp [statusAfter]
  | emitted => simp [statusAfter]
  | rxReset => simp [statusAfter]
  | softReset => exact absurd rfl hi

/-- Settles O27: one case per effect of a command; each names the registers it writes. -/
theorem commandsWriteOnlyTheirState : Obligations.CommandsWriteOnlyTheirState := by
  intro i s t h hi
  cases exec_effect h with
  | refused => simp
  | nop => simp
  | computed res valid hprim _ => simpa [RunsPrimitive] using fun _ => hprim
  | encoded am pm henc _ =>
    obtain rfl | rfl | rfl := henc <;> simp
  | decoded => simp [statusAfter]
  | undecoded => simp
  | fed => simp
  | emitted => simp [statusAfter]
  | rxReset => simp
  | softReset => exact absurd rfl hi

end Sys2Proof.Machine
end

section
/-! Family 10_state.md: the fields of the registers, read and written. -/

namespace Sys2Proof.Machine

/-! ### Reading a field back from a word -/

/-- A field moved up to bit `m` reads back there. -/
theorem extractLsb'_fieldAt_same {w : Nat} (x : BitVec w) (m : Nat) (h : m + w ≤ 32) :
    (x.setWidth 32 <<< m).extractLsb' m w = x := by
  apply BitVec.eq_of_getLsbD_eq
  intro i hi
  rw [BitVec.getLsbD_extractLsb', getLsbD_fieldAt _ _ _ (by omega)]
  simp [hi]

/-- The bits below a field moved up to bit `m` are 0, and so are those above it. -/
theorem extractLsb'_fieldAt_apart {w : Nat} (x : BitVec w) (m lo len : Nat)
    (h : lo + len ≤ m ∨ m + w ≤ lo) (h32 : lo + len ≤ 32) :
    (x.setWidth 32 <<< m).extractLsb' lo len = 0 := by
  apply BitVec.eq_of_getLsbD_eq
  intro i hi
  rw [BitVec.getLsbD_extractLsb', getLsbD_fieldAt _ _ _ (by omega)]
  rcases h with below | above
  · simp [show ¬m ≤ lo + i by omega]
  · simp [BitVec.getLsbD_of_ge x (lo + i - m) (by omega)]

/-- A field at the bottom of a word, as a field moved up by 0. -/
theorem setWidth_eq_fieldAt {w : Nat} (x : BitVec w) : x.setWidth 32 = x.setWidth 32 <<< 0 := by
  simp

/-- A field at the bottom of a word reads back there. -/
theorem extractLsb'_setWidth_same {w : Nat} (x : BitVec w) (h : w ≤ 32) :
    (x.setWidth 32).extractLsb' 0 w = x := by
  rw [setWidth_eq_fieldAt]
  exact extractLsb'_fieldAt_same x 0 (by omega)

/-- The bits above a field at the bottom of a word are 0. -/
theorem extractLsb'_setWidth_above {w : Nat} (x : BitVec w) (lo len : Nat) (h : w ≤ lo)
    (h32 : lo + len ≤ 32) : (x.setWidth 32).extractLsb' lo len = 0 := by
  rw [setWidth_eq_fieldAt]
  exact extractLsb'_fieldAt_apart x 0 lo len (by omega) h32

/-- R24, R36: the fields of a date word. -/
theorem dateWord_fields (tv : TimeValue) :
    (dateWord tv).extractLsb' 0 14 = tv.year ∧ (dateWord tv).extractLsb' 14 2 = 0 ∧
      (dateWord tv).extractLsb' 16 9 = tv.days ∧ (dateWord tv).extractLsb' 25 7 = 0 := by
  simp [dateWord, BitVec.extractLsb'_or, extractLsb'_fieldAt_same, extractLsb'_fieldAt_apart,
    extractLsb'_setWidth_same, extractLsb'_setWidth_above]

/-- R25, R37: the fields of a time word. -/
theorem timeWord_fields (tv : TimeValue) :
    (timeWord tv).extractLsb' 0 5 = tv.hour ∧ (timeWord tv).extractLsb' 5 3 = 0 ∧
      (timeWord tv).extractLsb' 8 6 = tv.minute ∧ (timeWord tv).extractLsb' 14 2 = 0 ∧
      (timeWord tv).extractLsb' 16 2 = tv.dst ∧ (timeWord tv).extractLsb' 18 6 = 0 ∧
      (timeWord tv).getLsbD 24 = tv.ls ∧ (timeWord tv).getLsbD 25 = tv.ly ∧
      (timeWord tv).extractLsb' 26 6 = 0 := by
  simp [timeWord, BitVec.extractLsb'_or, extractLsb'_fieldAt_same, extractLsb'_fieldAt_apart,
    extractLsb'_setWidth_same, extractLsb'_setWidth_above]

/-- R26, R38: the field of a UT1 word. -/
theorem ut1Word_fields (tv : TimeValue) :
    (ut1Word tv).extractLsb' 0 16 = tv.ut1 ∧ (ut1Word tv).extractLsb' 16 16 = 0 :=
  ⟨extractLsb'_setWidth_same _ (by decide),
    extractLsb'_setWidth_above _ _ _ (by decide) (by decide)⟩

/-- R34: the bits of `STATUS`. -/
theorem statusWord_fields (st : Status) :
    (statusWord st).getLsbD 0 = st.ok ∧ (statusWord st).getLsbD 1 = st.illegal ∧
      (statusWord st).getLsbD 2 = st.badArg ∧ (statusWord st).getLsbD 3 = st.valid ∧
      (statusWord st).getLsbD 4 = st.emit ∧ (statusWord st).extractLsb' 5 3 = 0 ∧
      (statusWord st).getLsbD 8 = st.sticky ∧ (statusWord st).extractLsb' 9 23 = 0 := by
  obtain ⟨ok, illegal, badArg, valid, emit, sticky⟩ := st
  revert ok illegal badArg valid emit sticky
  decide

/-- R35: the number of a receiver state fits the three bits of `STATE`. -/
theorem ofNat_rxStateCode (st : RxState) :
    BitVec.ofNat 32 (rxStateCode st) = (BitVec.ofNat 3 (rxStateCode st)).setWidth 32 := by
  cases st <;> rfl

/-- R35: the fields of `RX_STAT`. -/
theorem rxStatWord_fields (st : RxState) (acc : List AmSym) :
    (rxStatWord st acc).extractLsb' 0 3 = BitVec.ofNat 3 (rxStateCode st) ∧
      (rxStatWord st acc).extractLsb' 3 5 = 0 ∧
      (rxStatWord st acc).extractLsb' 8 8 = BitVec.ofNat 8 acc.length ∧
      (rxStatWord st acc).extractLsb' 16 16 = 0 := by
  rw [rxStatWord, ofNat_rxStateCode]
  simp [BitVec.extractLsb'_or, extractLsb'_fieldAt_same, extractLsb'_fieldAt_apart,
    extractLsb'_setWidth_same, extractLsb'_setWidth_above]

/-- Settles O13: each register is one of the words whose fields are given above. -/
theorem registerFieldsSitWhereTheTablesSay : Obligations.RegisterFieldsSitWhereTheTablesSay := by
  intro s
  refine ⟨dateWord_fields s.tv, timeWord_fields s.tv, ut1Word_fields s.tv, dateWord_fields s.tvo,
    timeWord_fields s.tvo, ut1Word_fields s.tvo, ?dstNext, ?tcLen, statusWord_fields s.status,
    ?rxStat, rfl, rfl, rfl, rfl⟩
  case dstNext =>
    exact ⟨extractLsb'_setWidth_same _ (by decide),
      extractLsb'_setWidth_above _ _ _ (by decide) (by decide)⟩
  case tcLen =>
    exact ⟨extractLsb'_setWidth_same _ (by decide),
      extractLsb'_setWidth_above _ _ _ (by decide) (by decide)⟩
  case rxStat =>
    obtain ⟨hstate, hrest⟩ := rxStatWord_fields s.rxState s.rxAcc
    refine ⟨hstate.trans ?_, hrest⟩
    cases s.rxState <;> rfl

/-! ### The cells of a buffer word -/

/-- A cell reads at its two bits as the code of its symbol (R31, R32). -/
theorem extractLsb'_bufferWord (code : Nat → Nat) {w j : Nat} (hj : j < 16) (hc : 16 * w + j < 61) :
    (bufferWord code w).extractLsb' (2 * j) 2 = BitVec.ofNat 2 (code (16 * w + j)) := by
  apply BitVec.eq_of_getLsbD_eq
  intro i hi
  rw [BitVec.getLsbD_extractLsb', getLsbD_bufferWord _ _ _ (by omega), BitVec.getLsbD_ofNat,
    show (2 * j + i) / 2 = j by omega, show (2 * j + i) % 2 = i by omega]
  simp [hc]

/-- The bits of a buffer word beyond cell 60 read 0 (R41). -/
theorem extractLsb'_bufferWord_beyond (code : Nat → Nat) {w j : Nat} (hj : j < 16)
    (hc : 61 ≤ 16 * w + j) : (bufferWord code w).extractLsb' (2 * j) 2 = 0 := by
  apply BitVec.eq_of_getLsbD_eq
  intro i hi
  rw [BitVec.getLsbD_extractLsb', getLsbD_bufferWord _ _ _ (by omega),
    show (2 * j + i) / 2 = j by omega]
  simp [show ¬16 * w + j < 61 by omega]

/-- Settles O14: both buffers read through `bufferWord`, with the codes of R33. -/
theorem bufferCellsReadAtTheirBits : Obligations.BufferCellsReadAtTheirBits := by
  intro s k j hj
  simp only [readReg, amWord, pmWord]
  refine ⟨fun hc => ?cell, fun hc => ⟨?_, ?_⟩⟩
  case cell =>
    rw [extractLsb'_bufferWord _ hj hc, extractLsb'_bufferWord _ hj hc]
    constructor
    · cases amCell s.am (16 * k.val + j) <;> rfl
    · cases pmCell s.pm (16 * k.val + j) <;> rfl
  · exact extractLsb'_bufferWord_beyond _ hj hc
  · exact extractLsb'_bufferWord_beyond _ hj hc

/-- A field of two bits, by its bits. -/
theorem bitField_two (v : Word) (lo : Nat) :
    bitField v lo 2 = (v.getLsbD lo).toNat + 2 * (v.getLsbD (lo + 1)).toNat := by
  apply Nat.eq_of_testBit_eq
  intro i
  rw [testBit_bitField]
  match i with
  | 0 => cases v.getLsbD lo <;> cases v.getLsbD (lo + 1) <;> rfl
  | 1 => cases v.getLsbD lo <;> cases v.getLsbD (lo + 1) <;> rfl
  | i + 2 =>
    have hlt : (v.getLsbD lo).toNat + 2 * (v.getLsbD (lo + 1)).toNat < 2 ^ 2 := by
      cases v.getLsbD lo <;> cases v.getLsbD (lo + 1) <;> decide
    have hpow : 2 ^ 2 ≤ 2 ^ (i + 2) := Nat.pow_le_pow_right (by decide) (by omega)
    rw [Nat.testBit_lt_two_pow (Nat.lt_of_lt_of_le hlt hpow)]
    simp

/-- Settles O12: the cells after the write are those of `setAmWord`. -/
theorem bufferWriteReplacesTheCellsOfTheWord :
    Obligations.BufferWriteReplacesTheCellsOfTheWord := by
  intro s rest k v hp
  refine ⟨_, step_of_hostWrite hp rfl, rfl, fun i hi => ?_⟩
  change amCell (setAmWord s.am k.val v) i = _
  rw [amCell_setAmWord _ _ _ _ hi, bitField_two]
  by_cases hk : i / 16 = k.val
  · rw [if_pos hk, if_pos hk]
    cases v.getLsbD (2 * (i % 16)) <;> cases v.getLsbD (2 * (i % 16) + 1) <;> rfl
  · rw [if_neg hk, if_neg hk]

/-! ### Writing a register -/

/-- A stored field, read back at its place, is the written word there and 0 elsewhere (R41). -/
theorem getLsbD_storedField (v : Word) (m len k : Nat) :
    (decide (m ≤ k) && (v.extractLsb' m len).getLsbD (k - m)) =
      (v.getLsbD k && decide (m ≤ k ∧ k < m + len)) := by
  rw [BitVec.getLsbD_extractLsb']
  by_cases h : m ≤ k
  · simp [h, show m + (k - m) = k by omega, show k - m < len ↔ k < m + len by omega, Bool.and_comm]
  · simp [h]

/-- A stored field at the bottom of its word. -/
theorem getLsbD_storedField_zero (v : Word) (len k : Nat) :
    (v.extractLsb' 0 len).getLsbD k = (v.getLsbD k && decide (k < len)) := by
  simpa using getLsbD_storedField v 0 len k

/-- A stored bit, read back at its place. -/
theorem getLsbD_storedBit (v : Word) (m k : Nat) :
    (decide (m ≤ k) && (BitVec.ofBool (v.getLsbD m)).getLsbD (k - m)) =
      (v.getLsbD k && decide (m = k)) := by
  rcases Nat.lt_trichotomy m k with h | h | h
  · simp [BitVec.getLsbD_of_ge (BitVec.ofBool _) (k - m) (by omega), Nat.ne_of_lt h]
  · subst h
    simp
  · simp [Nat.not_le.2 h, Nat.ne_of_gt h]

/-- R24: `TV_DATE` reads the written word without its reserved bits. -/
theorem dateWord_setDate (tv : TimeValue) (v : Word) :
    dateWord (setDate tv v) = v &&& 0x01FF3FFF := by
  have hmask : ∀ k < 32, (0x01FF3FFF : Word).getLsbD k
      = (decide (k < 14) || decide (16 ≤ k ∧ k < 16 + 9)) := by decide
  apply BitVec.eq_of_getLsbD_eq
  intro k hk
  rw [getLsbD_dateWord _ _ hk, BitVec.getLsbD_and, hmask k hk]
  simp only [setDate, getLsbD_storedField, getLsbD_storedField_zero, Bool.and_or_distrib_left]

/-- R25: `TV_TIME` reads the written word without its reserved bits. -/
theorem timeWord_setTime (tv : TimeValue) (v : Word) :
    timeWord (setTime tv v) = v &&& 0x03033F1F := by
  have hmask : ∀ k < 32, (0x03033F1F : Word).getLsbD k
      = (decide (k < 5) || decide (8 ≤ k ∧ k < 8 + 6) || decide (16 ≤ k ∧ k < 16 + 2)
        || decide (24 = k) || decide (25 = k)) := by decide
  apply BitVec.eq_of_getLsbD_eq
  intro k hk
  rw [getLsbD_timeWord _ _ hk, BitVec.getLsbD_and, hmask k hk]
  simp only [setTime, getLsbD_storedField, getLsbD_storedField_zero, getLsbD_storedBit,
    Bool.and_or_distrib_left]

/-- A register of one field at the bottom reads the written word without its reserved bits. -/
theorem setWidth_extractLsb' (v mask : Word) (len : Nat)
    (hmask : ∀ k < 32, mask.getLsbD k = decide (k < len)) :
    (v.extractLsb' 0 len).setWidth 32 = v &&& mask := by
  apply BitVec.eq_of_getLsbD_eq
  intro k hk
  rw [BitVec.getLsbD_setWidth, getLsbD_storedField_zero, BitVec.getLsbD_and, hmask k hk]
  simp [hk]

/-- The bits of word `k` of `AM_BUF` that belong to cells (R31). -/
theorem getLsbD_amBufMask (k : Fin 4) : ∀ n < 32,
    (if k = 3 then 0x03FFFFFF else 0xFFFFFFFF : Word).getLsbD n
      = decide (16 * k.val + n / 2 < 61) := by
  revert k
  decide

/-- R31: the written word of `AM_BUF` reads back without its reserved bits. -/
theorem amWord_setAmWord_same (am : AmBuf) (k : Fin 4) (v : Word) :
    amWord (setAmWord am k.val v) k.val = v &&& if k = 3 then 0x03FFFFFF else 0xFFFFFFFF := by
  apply BitVec.eq_of_getLsbD_eq
  intro n hn
  rw [amWord, getLsbD_bufferWord _ _ _ hn, BitVec.getLsbD_and, getLsbD_amBufMask k n hn,
    Bool.and_comm]
  by_cases hc : 16 * k.val + n / 2 < 61
  · rw [amCell_setAmWord _ _ _ _ hc, if_pos (by omega), symCode_symOfCode _ (bitField_lt _ _ 2),
      testBit_bitField, show 2 * ((16 * k.val + n / 2) % 16) + n % 2 = n by omega]
    simp [Nat.mod_lt n Nat.two_pos]
  · simp [hc]

/-- R31: the other words of `AM_BUF` read as before. -/
theorem amWord_setAmWord_other (am : AmBuf) {w w' : Nat} (v : Word) (h : w' ≠ w) :
    amWord (setAmWord am w v) w' = amWord am w' := by
  apply BitVec.eq_of_getLsbD_eq
  intro n hn
  rw [amWord, amWord, getLsbD_bufferWord _ _ _ hn, getLsbD_bufferWord _ _ _ hn]
  by_cases hc : 16 * w' + n / 2 < 61
  · rw [amCell_setAmWord _ _ _ _ hc, if_neg (by omega)]
  · simp [hc]

/-- R28: `OPA` has no reserved bits. -/
theorem and_allBits (v : Word) : v &&& 0xFFFFFFFF = v := by
  rw [show (0xFFFFFFFF : Word) = BitVec.allOnes 32 by decide, BitVec.and_allOnes]

/-- A read-write register other than `CMD` reads the written word without its reserved bits. -/
theorem readReg_writeReg_same {r : Reg} {v stored : Word} {s t : State}
    (hs : storedBits r = some stored) (h : writeReg r v s = .next t) :
    readReg r t = v &&& stored := by
  cases r <;> cases hs
  case tvDate => cases h; exact dateWord_setDate s.tv v
  case tvTime => cases h; exact timeWord_setTime s.tv v
  case tvUt1 => cases h; exact setWidth_extractLsb' v _ 16 (by decide)
  case dstNext => cases h; exact setWidth_extractLsb' v _ 6 (by decide)
  case opa => cases h; exact (and_allBits v).symm
  case amBuf k => cases h; exact amWord_setAmWord_same s.am k v

/-- After a write to a read-write register other than `CMD` every other register reads as before: the
three registers of `TV` share no field, and the words of `AM_BUF` share no cell. -/
theorem readReg_writeReg_other {r r' : Reg} {v stored : Word} {s t : State}
    (hs : storedBits r = some stored) (h : writeReg r v s = .next t) (hr : r' ≠ r) :
    readReg r' t = readReg r' s := by
  cases r <;> cases hs
  case amBuf k =>
    cases h
    cases r' with
    | amBuf k' =>
      have hk : k'.val ≠ k.val := fun e => hr (congrArg Reg.amBuf (Fin.ext e))
      simp only [readReg]
      exact amWord_setAmWord_other s.am v hk
    | _ => simp only [readReg]
  all_goals
    cases h
    cases r' <;> first | rfl | exact absurd rfl hr

/-- A write to a read-write register other than `CMD` completes and leaves the accumulator, the port
and the answer. -/
theorem writeReg_completes {r : Reg} {stored : Word} (hs : storedBits r = some stored) (v : Word)
    (s : State) :
    ∃ t, writeReg r v s = .next t ∧ t.rxAcc = s.rxAcc ∧ t.port = s.port ∧
      t.response = s.response := by
  cases r <;> cases hs <;> exact ⟨_, rfl, rfl, rfl, rfl⟩

/-- A register with stored bits is one the host may write (R65). -/
theorem regWritable_of_storedBits {r : Reg} {stored : Word} (hs : storedBits r = some stored) :
    regWritable r = true := by
  cases r <;> cases hs <;> rfl

/-- No register shows what is pending at the port. -/
theorem readReg_takeFromPort (r : Reg) (rest : List HostEvent) (s : State) :
    readReg r (takeFromPort rest s) = readReg r s := by
  cases r <;> rfl

/-- Settles O11: the step is the register write, on the state with that write taken off the port. -/
theorem writeStoresTheNonReservedBitsOnly : Obligations.WriteStoresTheNonReservedBitsOnly := by
  intro s rest r v stored hs hp
  obtain ⟨t, ht, hacc, hport, hresp⟩ := writeReg_completes hs v (takeFromPort rest s)
  refine ⟨t, ?_, readReg_writeReg_same hs ht, fun r' hr => ?_, hacc, hport, hresp⟩
  · rw [step_of_hostWrite hp (regWritable_of_storedBits hs), ht]
  · rw [readReg_writeReg_other hs ht hr, readReg_takeFromPort]

end Sys2Proof.Machine
end

section
/-! Family 10_state.md: every step keeps the invariant. The parts of `Inv` that a command can break are
one section each: the length and the PM cells (the encoders), the decoded value (`DEC_AM`) and the
accumulator (`RX_FEED`). -/

namespace Sys2Proof.Machine

/-! ### The length and the PM cells -/

/-- R120: the length of a minute is one `TC_LEN` may hold. -/
theorem tcLen_legal (tv : TimeValue) :
    BitVec.ofNat 8 (lengthOf tv) = 0 ∨ BitVec.ofNat 8 (lengthOf tv) = 59 ∨
      BitVec.ofNat 8 (lengthOf tv) = 60 ∨ BitVec.ofNat 8 (lengthOf tv) = 61 := by
  rcases lengthOf_cases tv with h | h | h <;> rw [h] <;> decide

/-- A bit written to a PM cell makes it `ZERO` or `ONE` (R9). -/
theorem pmSymOfBit_ne_unset (b : Bool) : pmSymOfBit b ≠ .unset := by
  cases b <;> decide

/-- Cells written with bits are not written `UNSET`. -/
theorem ne_unset_of_mem_bits {α : Type} {l : List α} {pos : α → Nat} {bit : α → Bool}
    {w : Nat × PmSym} (hw : w ∈ l.map fun p => (pos p, pmSymOfBit (bit p))) : w.2 ≠ .unset := by
  obtain ⟨p, -, rfl⟩ := List.mem_map.1 hw
  exact pmSymOfBit_ne_unset _

/-- R162 to R170: a regular minute writes no cell `UNSET`. -/
theorem regularWrites_ne_unset {tv : TimeValue} {dn : BitVec 6} {len : Nat} {w : Nat × PmSym}
    (hw : w ∈ regularWrites tv dn len) : w.2 ≠ .unset := by
  obtain hsync | hparity | hmoc | hres | hdst | hnotice | hnext | htail := mem_regularWrites.1 hw
  · exact ne_unset_of_mem_bits hsync
  · exact ne_unset_of_mem_bits hparity
  · exact ne_unset_of_mem_bits hmoc
  · simp only [reservedWrites, List.mem_cons, List.not_mem_nil, or_false] at hres
    obtain rfl | rfl := hres <;> decide
  · exact ne_unset_of_mem_bits hdst
  · rw [List.mem_singleton.1 hnotice]
    decide
  · exact ne_unset_of_mem_bits hnext
  · simp only [tailWrites, List.mem_append] at htail
    rcases htail with h | h <;> split at h <;> simp_all

/-- R161: the flagged leap second falls in no extended minute, so an extended minute has 60 seconds. -/
theorem lengthOf_of_extendedMinute {tv : TimeValue} (h : extendedMinute tv.minute.toNat = true) :
    lengthOf tv = 60 := by
  have hne : tv.minute.toNat ≠ 59 := by
    intro e
    rw [e] at h
    exact absurd h (by decide)
  simp [lengthOf, minuteLength, hne]

/-- A regular minute writes exactly the cells below its length (R170). -/
theorem mem_regularWrites_fst {tv : TimeValue} {dn : BitVec 6} {len i : Nat}
    (hlen : len = 59 ∨ len = 60 ∨ len = 61) (hi : i < 61) :
    i ∈ (regularWrites tv dn len).map Prod.fst ↔ i < len := by
  rw [regularWrites_fst]
  revert i
  rcases hlen with rfl | rfl | rfl <;> decide

/-- An encoded minute writes exactly the cells below its length (R170, R175). -/
theorem mem_pmWrites_fst (tv : TimeValue) (dn : BitVec 6) {i : Nat} (hi : i < 61) :
    i ∈ (pmWrites tv dn (lengthOf tv)).map Prod.fst ↔ i < lengthOf tv := by
  cases hx : extendedMinute tv.minute.toNat with
  | true =>
    simp only [pmWrites, hx, if_true, extendedWrites_fst, lengthOf_of_extendedMinute hx,
      List.mem_range]
  | false =>
    simp only [pmWrites, hx, Bool.false_eq_true, if_false]
    exact mem_regularWrites_fst (lengthOf_cases tv) hi

/-- No cell is written twice, in either kind of minute. -/
theorem pmWrites_nodup (tv : TimeValue) (dn : BitVec 6) (len : Nat) :
    ((pmWrites tv dn len).map Prod.fst).Nodup := by
  unfold pmWrites
  split
  · rw [extendedWrites_fst]
    exact List.nodup_range
  · exact regularWrites_nodup tv dn len

/-- No cell is written `UNSET`, in either kind of minute. -/
theorem pmWrites_ne_unset {tv : TimeValue} {dn : BitVec 6} {len : Nat} {w : Nat × PmSym}
    (hw : w ∈ pmWrites tv dn len) : w.2 ≠ .unset := by
  unfold pmWrites at hw
  split at hw
  · exact ne_unset_of_mem_bits hw
  · exact regularWrites_ne_unset hw

/-- The cells of an encoded minute from its length on are `UNSET`. -/
theorem pmCell_pmEncode_of_le (tv : TimeValue) (dn : BitVec 6) {i : Nat} (hi : i < 61)
    (h : lengthOf tv ≤ i) : pmCell (pmEncode tv dn (lengthOf tv)) i = .unset := by
  rw [pmEncode, pmCell_of_not_mem hi (mt (mem_pmWrites_fst tv dn hi).1 (Nat.not_lt.2 h)),
    pmCell_clearPm]

/-- The cells of an encoded minute below its length are written. -/
theorem pmCell_pmEncode_of_lt (tv : TimeValue) (dn : BitVec 6) {i : Nat} (hi : i < 61)
    (h : i < lengthOf tv) : pmCell (pmEncode tv dn (lengthOf tv)) i ≠ .unset := by
  obtain ⟨⟨_, v⟩, hm, rfl⟩ := List.mem_map.1 ((mem_pmWrites_fst tv dn hi).2 h)
  rw [pmEncode, pmCell_of_mem hi (pmWrites_nodup tv dn _) hm]
  exact pmWrites_ne_unset hm

/-- A cleared PM channel meets the invariant, whatever the length. -/
theorem pmInv_of_clearPm {s : State} (h : s.pm = clearPm) : pmInv s := by
  rw [pmInv, h]
  exact ⟨fun i _ _ => pmCell_clearPm i, .inl fun i _ => pmCell_clearPm i⟩

/-- An encoded PM channel meets the invariant with the length that belongs to it. -/
theorem pmInv_of_pmEncode {s : State} (tv : TimeValue) (dn : BitVec 6)
    (h : s.pm = pmEncode tv dn (lengthOf tv)) (hlen : s.tcLen = BitVec.ofNat 8 (lengthOf tv)) :
    pmInv s := by
  have hle : lengthOf tv ≤ 61 := by
    rcases lengthOf_cases tv with e | e | e <;> omega
  rw [pmInv, h, hlen, tcLen_lengthOf]
  exact ⟨fun i hi => pmCell_pmEncode_of_le tv dn hi,
    .inr fun i hi => pmCell_pmEncode_of_lt tv dn (Nat.lt_of_lt_of_le hi hle) hi⟩

/-! ### The decoded value -/

/-- Decimal digits at the first `n` places make a number below `10 ^ n`. -/
theorem sum_digits_lt (digitAt : Nat → Nat) (n : Nat) (h : ∀ j < n, digitAt j ≤ 9) :
    ((List.range n).map fun j => digitAt j * 10 ^ j).sum < 10 ^ n := by
  induction n with
  | zero => simp
  | succ n ih =>
    have hlow := ih fun j hj => h j (by omega)
    have htop : digitAt n * 10 ^ n ≤ 9 * 10 ^ n := Nat.mul_le_mul_right _ (h n (by omega))
    simp only [List.range_succ, List.map_append, List.sum_append, List.map_singleton,
      List.sum_singleton, Nat.pow_succ]
    omega

/-- A field that reads a number reads one of as many digits as it has groups (R103, R104). -/
theorem getField_lt {am : AmBuf} {positions : List Nat} {v : Nat}
    (h : getField am positions = .value v) : v < 10 ^ ((positions.length + 3) / 4) := by
  by_cases hb : ∀ p ∈ positions, amCell am p = .zero ∨ amCell am p = .one
  · rw [getField_binary hb] at h
    split at h
    next hd =>
      cases h
      exact sum_digits_lt _ _ hd
    next => cases h
  · rw [getField_bad hb] at h
    cases h

/-- A minute that decodes gives the value of its fields, which are in range (R197, R199). -/
theorem decAm_eq_some {am : AmBuf} {tv : TimeValue} (h : decAm am = some tv) :
    ∃ minute hour days magnitude yy dst,
      getField am ut1Positions = .value magnitude ∧ getField am yearPositions = .value yy ∧
      rangesHold minute hour days (amCell am 55 == .one) = true ∧
      tv = decodedValue am minute hour days magnitude yy dst := by
  unfold decAm at h
  split at h
  next =>
    unfold decodeCells at h
    split at h
    next minute hour days magnitude yy dst _ _ _ hut1 hyear _ =>
      split at h
      next hr =>
        cases h
        exact ⟨minute, hour, days, magnitude, yy, dst, hut1, hyear, hr, rfl⟩
      next => cases h
    next => cases h
  next => cases h

/-- The ranges the decoder accepts, in the rule's own numbers (R197). -/
theorem rangesHold_iff {minute hour days : Nat} {ly : Bool} :
    rangesHold minute hour days ly = true ↔
      minute < 60 ∧ hour < 24 ∧ 1 ≤ days ∧ days ≤ if ly = true then 366 else 365 := by
  cases ly <;> simp [rangesHold] <;> omega

/-- R128, with the value of `EPOCH`: a two-digit year becomes one of 1970 to 2069. -/
theorem fullYear_epoch_bounds {yy : Nat} (h : yy < 100) :
    1970 ≤ fullYear Config.epoch yy ∧ fullYear Config.epoch yy ≤ 2069 := by
  unfold fullYear
  split
  · simp only [Config.epoch] at *
    omega
  · simp only [Config.epoch] at *
    omega

/-- R198: one digit of tenths of a second gives at most 900 milliseconds either way. -/
theorem decodedUt1_bounds {magnitude : Nat} (sign : AmSym) (h : magnitude < 10) :
    -900 ≤ decodedUt1 magnitude sign ∧ decodedUt1 magnitude sign ≤ 900 := by
  unfold decodedUt1
  split <;> omega

/-- A value of the decoder is one the encoders accept (R129, R199). -/
theorem legalTv_decodedValue (am : AmBuf) {minute hour days magnitude yy : Nat} (dst : Nat)
    (hm : magnitude < 10) (hy : yy < 100)
    (hr : rangesHold minute hour days (amCell am 55 == .one) = true) :
    legalTv (decodedValue am minute hour days magnitude yy dst) := by
  obtain ⟨hminute, hhour, hdays, hlast⟩ := rangesHold_iff.1 hr
  obtain ⟨hyear, hyear'⟩ := fullYear_epoch_bounds hy
  obtain ⟨hut1, hut1'⟩ := decodedUt1_bounds (amCell am 38) hm
  have hlast' : days ≤ 366 := by
    split at hlast <;> omega
  have hint : (BitVec.ofInt 16 (decodedUt1 magnitude (amCell am 38))).toInt
      = decodedUt1 magnitude (amCell am 38) := by
    rw [BitVec.toInt_ofInt, Int.bmod_eq_of_le (by omega) (by omega)]
  simp only [legalTv, decodedValue, BitVec.toNat_ofNat, hint]
  refine ⟨by omega, by omega, by omega, ?_, by omega, by omega, hut1, hut1'⟩
  rw [Nat.mod_eq_of_lt (by omega)]
  exact hlast

/-- What `DEC_AM` writes to `TVO` is legal: the fields' digits bound UT1 and the year, and the checks
of R197 bound the rest. -/
theorem legalTv_of_decAm {am : AmBuf} {tv : TimeValue} (h : decAm am = some tv) : legalTv tv := by
  obtain ⟨minute, hour, days, magnitude, yy, dst, hut1, hyear, hr, rfl⟩ := decAm_eq_some h
  exact legalTv_decodedValue am dst (getField_lt hut1) (getField_lt hyear) hr

/-! ### The accumulator -/

/-- `receiverInv` of the two fields it speaks of (R39, R211). -/
def ReceiverHolds (st : RxState) (acc : List AmSym) : Prop :=
  (st ≠ .inMinute → acc = []) ∧
    (st = .inMinute → 2 ≤ acc.length ∧ acc.length ≤ 59 ∧ skeletonHolds acc)

theorem receiverInv_iff (s : State) : receiverInv s ↔ ReceiverHolds s.rxState s.rxAcc := Iff.rfl

/-- Outside state 4 the accumulator is empty. -/
theorem ReceiverHolds.outside {st : RxState} (h : st ≠ .inMinute) : ReceiverHolds st [] :=
  ⟨fun _ => rfl, fun e => absurd e h⟩

/-- Inside a minute it holds a beginning of a skeleton. -/
theorem ReceiverHolds.inside {acc : List AmSym} (h2 : 2 ≤ acc.length) (h59 : acc.length ≤ 59)
    (hs : skeletonHolds acc) : ReceiverHolds .inMinute acc :=
  ⟨fun h => absurd rfl h, fun _ => ⟨h2, h59, hs⟩⟩

/-- The two symbols that start a minute are the beginning of a skeleton (R215). -/
theorem skeletonHolds_start {v : AmSym} (hu : v ≠ .unset) (hm : v ≠ .mark) :
    skeletonHolds [.mark, v] := by
  have hfirst : skeletonHolds [.mark] := by
    intro i hi
    obtain rfl : i = 0 := by simpa using hi
    rfl
  refine skeletonHolds_snoc hfirst ?_
  show v = .zero ∨ v = .one
  cases v <;> simp_all

/-- Every transition on a received symbol keeps the receiver's invariant (R213 to R219). -/
theorem rxStep_receiverHolds {st : RxState} {acc : List AmSym} {v : AmSym} (hu : v ≠ .unset)
    (h : ReceiverHolds st acc) :
    ReceiverHolds (rxStep st acc v).state (rxStep st acc v).acc := by
  obtain ⟨hout, hin⟩ := h
  cases st with
  | unsynced =>
    rw [rxStep, hout (by decide)]
    exact .outside (by split <;> decide)
  | oneMark =>
    rw [rxStep, hout (by decide)]
    exact .outside (by split <;> decide)
  | twoMarks =>
    rw [rxStep, hout (by decide)]
    split
    next => exact .outside (by decide)
    next hm => exact .inside (by simp) (by simp) (skeletonHolds_start hu hm)
  | inMinute =>
    obtain ⟨h2, h59, hs⟩ := hin rfl
    rw [rxStep]
    obtain ⟨e, hv, hne⟩ | ⟨e, -, -⟩ | ⟨st, e, hst, -⟩ := rxInMinute_cases acc v hu <;> rw [e]
    · exact .inside (by simp; omega) (by simp; omega) (skeletonHolds_snoc hs hv)
    · exact .outside (by simp)
    · exact .outside hst

/-! ### The whole invariant -/

/-- A change of `STATUS` that keeps its part keeps the invariant. -/
theorem Inv.withStatus {s : State} (h : Inv s) {st : Status}
    (hst : statusInv { s with status := st }) : Inv { s with status := st } :=
  ⟨h.receiver, h.length, hst, h.decoded, h.pm⟩

/-- A command that ends without an error keeps the invariant its writes keep: no command sets both
`VALID` and `EMIT` (R245). -/
theorem Inv.complete {s : State} (h : Inv s) {valid emit : Bool}
    (hve : (valid && emit) = false) : Inv (complete s valid emit) := by
  refine h.withStatus ?_
  cases valid <;> cases emit <;> simp_all [statusInv, statusAfter]

/-- Raising an error keeps the invariant (R240, R248). -/
theorem Inv.raiseError {s : State} (h : Inv s) (e : ErrorKind) : Inv (raiseError e s) := by
  refine h.withStatus ?_
  cases e <;> simp [statusInv, statusAfter]

/-- The invariant speaks neither of the input registers, `RES` and `AM`, nor of the bus. -/
theorem Inv.of_frame {s t : State} (h : Inv s)
    (ht : t = { s with
      tv := t.tv, dstNext := t.dstNext, opa := t.opa, res := t.res, am := t.am, port := t.port,
      response := t.response }) : Inv t :=
  ht ▸ ⟨h.receiver, h.length, h.status, h.decoded, h.pm⟩

/-- The values of R270 meet the invariant. -/
theorem inv_resetBlock (s : State) : Inv (resetBlock s) :=
  ⟨ReceiverHolds.outside (by simp [State.reset]), .inl rfl,
    by simp [statusInv, State.reset, Status.clear], .inl rfl, pmInv_of_clearPm rfl⟩

/-- Every effect a command can have keeps the invariant. -/
theorem Inv.commandEffect {i : Instr} {s t : State} (h : Inv s) (he : CommandEffect s i t) :
    Inv t := by
  have hrx := (receiverInv_iff s).1 h.receiver
  cases he with
  | refused => exact h.raiseError .badArg
  | nop => exact h.complete rfl
  | computed res valid => exact (h.of_frame rfl).complete (Bool.and_false valid)
  | encoded am pm _ hpm =>
    refine Inv.complete ?_ rfl
    refine ⟨h.receiver, tcLen_legal s.tv, h.status, h.decoded, ?_⟩
    obtain hclear | henc := hpm
    · exact pmInv_of_clearPm hclear
    · exact pmInv_of_pmEncode s.tv s.dstNext henc rfl
  | decoded tv htv =>
    refine Inv.complete ?_ rfl
    exact ⟨h.receiver, h.length, h.status, .inr (legalTv_of_decAm htv), h.pm⟩
  | undecoded => exact h.complete rfl
  | fed hsym =>
    refine Inv.complete ?_ rfl
    exact ⟨rxStep_receiverHolds hsym hrx, h.length, h.status, h.decoded, h.pm⟩
  | emitted hsym =>
    refine Inv.complete ?_ rfl
    exact ⟨rxStep_receiverHolds hsym hrx, .inr (.inr (.inl rfl)), h.status, h.decoded,
      pmInv_of_clearPm rfl⟩
  | rxReset =>
    refine Inv.complete ?_ rfl
    exact ⟨ReceiverHolds.outside (by simp), h.length, h.status, h.decoded, h.pm⟩
  | softReset =>
    exact (inv_resetBlock s).withStatus (by simp [statusInv, statusAfterSoftReset, Status.clear])

/-- A command write keeps the invariant, whether its word decodes or not. -/
theorem Inv.runCommand {w : Word} {s t : State} (h : Inv s) (ht : runCommand w s = .next t) :
    Inv t := by
  obtain ⟨i, -, hi⟩ | ⟨e, -, rfl⟩ := runCommand_next ht
  · exact h.commandEffect (exec_effect hi)
  · exact h.raiseError .illegal

/-- An access keeps the invariant: it runs a command, or writes nothing the invariant speaks of. -/
theorem Inv.serveAccess {a : BusAccess} {s t : State} (h : Inv s)
    (ht : serveAccess a s = .next t) : Inv t := by
  obtain ⟨w, -, -, hrun⟩ | hframe := serveAccess_effect ht
  · exact h.runCommand hrun
  · exact h.of_frame (by rw [hframe])

/-- Settles O53: a step does nothing, resets the block, or serves one access. -/
theorem stepKeepsTheInvariant : Obligations.StepKeepsTheInvariant := by
  intro s t h ht
  obtain ⟨-, rfl⟩ | ⟨rest, -, rfl⟩ | ⟨a, rest, -, hserve⟩ := step_next ht
  · exact h
  · exact inv_resetBlock _
  · exact (h.of_frame (t := takeFromPort rest s) rfl).serveAccess hserve

end Sys2Proof.Machine
end

section
/-! Family 20_memory.md: the address map, and the accesses the window accepts. -/

namespace Sys2Proof.Machine

/-! ### The address map -/

/-- Every register is one of the 22 of R61. -/
theorem mem_allRegs (r : Reg) : r ∈ allRegs := by
  cases r with
  | amBuf k => revert k; decide
  | pmBuf k => revert k; decide
  | _ => decide

/-- The rows of the address map: each register under its offset (R61). -/
def addressMap : List (Nat × Reg) := allRegs.map fun r => (regOffset r, r)

/-- The map holds a register under its own offset and under no other. -/
theorem mem_addressMap_iff {off : Nat} {r : Reg} : (off, r) ∈ addressMap ↔ regOffset r = off := by
  simp [addressMap, mem_allRegs]

/-- Selection by offset inverts the offsets (R61). -/
theorem regAt_eq_some_iff {off : Nat} {r : Reg} : regAt off = some r ↔ regOffset r = off := by
  constructor
  · intro h
    unfold regAt at h
    split at h <;> cases h <;> rfl
  · rintro rfl
    have hall : ∀ r ∈ allRegs, regAt (regOffset r) = some r := by decide
    exact hall r (mem_allRegs r)

/-- The offsets of R61: multiples of 4 below 0x60, with the two gaps left out. -/
theorem regOffset_bounds (r : Reg) :
    regOffset r % 4 = 0 ∧ regOffset r < 0x60 ∧ regOffset r ≠ 0x2C ∧ regOffset r ≠ 0x3C := by
  have hall : ∀ r ∈ allRegs,
      regOffset r % 4 = 0 ∧ regOffset r < 0x60 ∧ regOffset r ≠ 0x2C ∧ regOffset r ≠ 0x3C := by decide
  exact hall r (mem_allRegs r)

/-- R63, R64: an aligned offset has a register exactly below 0x60 and outside the two gaps. -/
theorem exists_regAt_iff {off : Nat} :
    (∃ r, regAt off = some r) ↔ off % 4 = 0 ∧ off < 0x60 ∧ off ≠ 0x2C ∧ off ≠ 0x3C := by
  constructor
  · rintro ⟨r, hr⟩
    exact regAt_eq_some_iff.1 hr ▸ regOffset_bounds r
  · rintro ⟨h4, hlt, h2C, h3C⟩
    have hall : ∀ n < 0x60, n % 4 = 0 → n ≠ 0x2C → n ≠ 0x3C → (regAt n).isSome = true := by decide
    exact Option.isSome_iff_exists.1 (hall off hlt h4 h2C h3C)

/-- R65: the offsets of the registers a write reaches. -/
theorem regWritable_iff_regOffset_mem (r : Reg) :
    regWritable r = true ↔
      regOffset r ∈ [0x04, 0x10, 0x14, 0x18, 0x1C, 0x20, 0x40, 0x44, 0x48, 0x4C] := by
  have hall : ∀ r ∈ allRegs, regWritable r = true ↔
      regOffset r ∈ [0x04, 0x10, 0x14, 0x18, 0x1C, 0x20, 0x40, 0x44, 0x48, 0x4C] := by decide
  exact hall r (mem_allRegs r)

/-- R60: the window starts at a multiple of its size. -/
theorem base_mod : Config.base % 128 = 0 := Nat.mul_mod_right 128 _

/-- R60: an address selects an offset exactly when it lies that far above `BASE`. -/
theorem windowOffset_eq_some_iff {address : Nat} {off : BitVec 7} :
    windowOffset address = some off ↔ address = Config.base + off.toNat := by
  have hoff : off.toNat < 128 := off.isLt
  unfold windowOffset
  split
  next hin =>
    rw [Option.some_inj, ← BitVec.toNat_inj, BitVec.toNat_ofNat]
    omega
  next hout => simpa using by omega

/-- Settles O15: the printed map is `addressMap`, and selection and offset invert each other. -/
theorem hostAddressSelectsTheRegister : Obligations.HostAddressSelectsTheRegister := by
  refine ⟨base_mod, fun off r => ?_, fun r => ⟨mem_addressMap_iff.2 rfl, rfl⟩,
    fun _ _ => windowOffset_eq_some_iff, fun r => ?_⟩
  · exact regAt_eq_some_iff.trans mem_addressMap_iff.symm
  · obtain ⟨h4, hlt, -, -⟩ := regOffset_bounds r
    have hoff : (BitVec.ofNat 7 (regOffset r)).toNat = regOffset r := by
      rw [BitVec.toNat_ofNat]
      omega
    refine ⟨BitVec.ofNat 7 (regOffset r), windowOffset_eq_some_iff.2 ?_, ?_, ?_⟩
    · rw [hoff, hostAddress]
    · rw [hoff, regAt_eq_some_iff]
    · rw [hoff, h4]

/-! ### The accesses the window accepts -/

/-- R62, R71: the whole-word accesses. -/
theorem wholeWord_iff (a : BusAccess) :
    wholeWord a = true ↔ a.op ≠ .atomic ∧ a.width = 32 ∧ a.enables = 0b1111#4 := by
  simp [wholeWord, and_assoc]

/-- R65, R71: every register admits a read, the writable ones a write. -/
theorem rightsError_eq_none_iff {op : BusOp} {r : Reg} :
    rightsError op r = none ↔ op = .read ∨ ((∃ v, op = .write v) ∧ regWritable r = true) := by
  cases op <;> simp [rightsError]

/-- The window accepts a whole-word aligned access that the register at its offset admits, and no
other. -/
theorem acceptAccess_eq_ok_iff {a : BusAccess} {r : Reg} :
    acceptAccess a = .ok r ↔ wholeWord a = true ∧ a.offset.toNat % 4 = 0 ∧
      regAt a.offset.toNat = some r ∧ rightsError a.op r = none := by
  refine ⟨acceptAccess_ok, ?_⟩
  rintro ⟨hword, h4, hreg, hrights⟩
  simp [acceptAccess, hword, h4, hreg, hrights]

/-- The accesses that R62 to R65 and R71 describe are the ones the window accepts. -/
theorem accessAccepted_iff (a : BusAccess) :
    accessAccepted a ↔ ∃ r, acceptAccess a = .ok r := by
  simp only [acceptAccess_eq_ok_iff, wholeWord_iff, rightsError_eq_none_iff]
  constructor
  · rintro ⟨hwidth, henables, h4, hlt, h2C, h3C, hop⟩
    obtain ⟨r, hr⟩ := exists_regAt_iff.2 ⟨h4, hlt, h2C, h3C⟩
    refine ⟨r, ⟨?_, hwidth, henables⟩, h4, hr, ?_⟩
    · rcases hop with h | ⟨⟨v, h⟩, -⟩ <;> simp [h]
    · rwa [regWritable_iff_regOffset_mem, regAt_eq_some_iff.1 hr]
  · rintro ⟨r, ⟨-, hwidth, henables⟩, h4, hr, hop⟩
    obtain ⟨-, hlt, h2C, h3C⟩ := exists_regAt_iff.1 ⟨r, hr⟩
    rw [regWritable_iff_regOffset_mem, regAt_eq_some_iff.1 hr] at hop
    exact ⟨hwidth, henables, h4, hlt, h2C, h3C, hop⟩

end Sys2Proof.Machine
end

section
/-! Family 20_memory.md: what a step answers, and the sequence of interactions a run serves. -/

namespace Sys2Proof.Machine

/-! ### What an accepted access answers -/

/-- Every command answers a next state: a check that fails is an outcome of the block, no fault. -/
theorem exec_completes (i : Instr) (s : State) : ∃ t, exec i s = .next t := by
  cases i with
  | nop => exact ⟨_, rfl⟩
  | decAm =>
    simp only [exec, execDecAm]
    cases decAm s.am <;> exact ⟨_, rfl⟩
  | rxReset => exact ⟨_, rfl⟩
  | softReset => exact ⟨_, rfl⟩
  | _ => exact checked_completes _ _ _

/-- A `CMD` word that does not decode raises `ILLEGAL` (R241). -/
theorem runCommand_of_error {w : Word} {e : Undecodable} (h : decode w = .error e) (s : State) :
    runCommand w s = .next (raiseError .illegal s) := by
  simp only [runCommand, h]

/-- Every command write answers a next state, whether its word decodes or not. -/
theorem runCommand_completes (w : Word) (s : State) : ∃ t, runCommand w s = .next t := by
  cases hd : decode w with
  | ok i =>
    rw [runCommand_of_decode hd]
    exact exec_completes i s
  | error e => exact ⟨_, runCommand_of_error hd s⟩

/-- A writable register is `CMD`, or stores some of its bits (R65). -/
theorem eq_cmd_or_storedBits {r : Reg} (h : regWritable r = true) :
    r = .cmd ∨ ∃ stored, storedBits r = some stored := by
  cases r <;> first | exact .inl rfl | exact .inr ⟨_, rfl⟩ | cases h

/-- A write to a writable register answers a next state. -/
theorem writeReg_of_writable {r : Reg} (h : regWritable r = true) (v : Word) (s : State) :
    ∃ t, writeReg r v s = .next t := by
  obtain rfl | ⟨stored, hs⟩ := eq_cmd_or_storedBits h
  · exact runCommand_completes v s
  · obtain ⟨t, ht, -⟩ := writeReg_completes hs v s
    exact ⟨t, ht⟩

/-- An accepted access answers a next state. -/
theorem serveAccess_of_ok {a : BusAccess} {r : Reg} (h : acceptAccess a = .ok r) (s : State) :
    ∃ t, serveAccess a s = .next t := by
  obtain ⟨-, -, -, hrights⟩ := acceptAccess_ok h
  simp only [serveAccess, h]
  obtain hop | ⟨⟨v, hop⟩, hwrite⟩ := rightsError_eq_none_iff.1 hrights
  · exact ⟨_, by rw [hop]⟩
  · rw [hop]
    exact writeReg_of_writable hwrite v s

/-- An access that is not accepted faults with the window's cause (R243). -/
theorem serveAccess_of_error {a : BusAccess} {cause : BusErrCause} (h : acceptAccess a = .error cause)
    (s : State) : serveAccess a s = .fault (.busErr cause) := by
  simp only [serveAccess, h]

/-- Settles O8: the step serves the access, and its answer follows the window's. -/
theorem busErrorExactlyWhenTheWindowRejects :
    Obligations.BusErrorExactlyWhenTheWindowRejects := by
  intro s a rest hp
  have hstep : step s = serveAccess a (takeFromPort rest s) := step_of_port_cons hp
  rw [hstep, accessAccepted_iff]
  cases hacc : acceptAccess a with
  | ok r => exact ⟨fun _ => serveAccess_of_ok hacc _, fun hno => absurd ⟨r, rfl⟩ hno⟩
  | error cause =>
    exact ⟨fun ⟨r, hr⟩ => by simp at hr, fun _ => ⟨cause, serveAccess_of_error hacc _⟩⟩

/-- Settles O10: the step serves the read, which every register admits. -/
theorem readAnswersTheRegisterAndChangesNothing :
    Obligations.ReadAnswersTheRegisterAndChangesNothing := by
  intro s rest r hp
  rw [step_of_port_cons hp, serveEvent_hostRead, readReg_takeFromPort]
  rfl

/-! ### Runs -/

/-- A run goes on from the next state of its first step. -/
theorem run_succ_of_next {k : Nat} {s t : State} (h : step s = .next t) :
    Sys2Proof.core.run (k + 1) s = Sys2Proof.core.run k t := by
  have hcore : Sys2Proof.core.step s = .next t := h
  simp only [Host.Core.run, hcore]

/-- A run whose first step faults is that fault. -/
theorem run_succ_of_fault {k : Nat} {s : State} {r : Fault} (h : step s = .fault r) :
    Sys2Proof.core.run (k + 1) s = .fault r := by
  have hcore : Sys2Proof.core.step s = .fault r := h
  simp only [Host.Core.run, hcore]

/-- A run whose first step is refused is that refusal. -/
theorem run_succ_of_refused {k : Nat} {s : State} {r : Refusal} (h : step s = .refused r) :
    Sys2Proof.core.run (k + 1) s = .refused r := by
  have hcore : Sys2Proof.core.step s = .refused r := h
  simp only [Host.Core.run, hcore]

/-- Settles O55, by induction on the sequence. The step and the sequence serve an interaction with
different ports behind it; `serveEvent_overPort` says that this shows in the port alone. -/
theorem runServesTheAccessesInOrder : Obligations.RunServesTheAccessesInOrder := by
  intro s events rest hp
  induction events generalizing s with
  | nil =>
    cases s
    cases hp
    rfl
  | cons e events ih =>
    have hstep : step s = mapNext (fun t => { t with port := events ++ rest })
        (serveEvent e (takeFromPort rest s)) :=
      (step_of_port_cons hp).trans (serveEvent_overPort e _ rest s)
    have hserve : serveEvent e (takeFromPort rest { s with port := rest })
        = serveEvent e (takeFromPort rest s) := rfl
    rw [List.length_cons, serveAll, hserve]
    cases ht : serveEvent e (takeFromPort rest s) with
    | next t =>
      have hport : t.port = rest := serveEvent_takeFromPort_port ht
      rw [ht] at hstep
      rw [run_succ_of_next hstep]
      exact (ih { t with port := events ++ rest } rfl).trans (by rw [← hport])
    | fault r => exact run_succ_of_fault (hstep.trans (by rw [ht]; rfl))
    | refused r => exact run_succ_of_refused (hstep.trans (by rw [ht]; rfl))

end Sys2Proof.Machine
end

section
/-! Family 20_memory.md: the command words that decode to nothing, and a word as its byte lanes. -/

namespace Sys2Proof.Machine

/-- R83, R84: the fields of a command word that no command has, its reserved half-word apart. -/
def ReservedFields (op imm : Nat) : Prop :=
  0x0E ≤ op ∨
    ((op ≤ 0x04 ∨ op = 0x06 ∨ op = 0x07 ∨ (0x0B ≤ op ∧ op ≤ 0x0D)) ∧ imm ≠ 0) ∨
    (op = 0x05 ∧ imm / 4 ≠ 0)

/-- A command without an operand refuses every immediate but 0 (R83). -/
theorem plainCommand_error_iff {imm : Nat} {i : Instr} :
    (∃ e, plainCommand imm i = .error e) ↔ imm ≠ 0 := by
  by_cases h : imm = 0 <;> simp [plainCommand, h]

/-- The fields that decode to no command are the reserved ones. -/
theorem decodeFields_error_iff (op imm : Nat) :
    (∃ e, decodeFields op imm = .error e) ↔ ReservedFields op imm := by
  unfold decodeFields ReservedFields
  -- `h_6` is the row of `RX_FEED`, `h_15` the opcodes without a row.
  split
  case h_6 => by_cases h : imm / 4 = 0 <;> simp [h]
  case h_15 =>
    have hop : 0x0E ≤ op := by grind
    exact iff_of_true ⟨_, rfl⟩ (.inl hop)
  all_goals simp [plainCommand_error_iff]

/-- R241: a word decodes to no command exactly when its upper half-word is not 0 or its fields are
reserved. -/
theorem decode_error_iff (w : Word) :
    (∃ e, decode w = .error e) ↔
      w.toNat / 65536 ≠ 0 ∨ ReservedFields (w.toNat % 256) (w.toNat / 256 % 256) := by
  have hw : w.toNat < 2 ^ 32 := w.isLt
  have hhigh : bitField w 16 16 = w.toNat / 65536 := by
    simp only [bitField]
    omega
  have hop : bitField w 0 8 = w.toNat % 256 := by simp [bitField]
  have himm : bitField w 8 8 = w.toNat / 256 % 256 := by simp [bitField]
  simp only [decode, hhigh, hop, himm]
  split
  next h => simp [h]
  next h => rw [decodeFields_error_iff, or_iff_right h]

/-- Settles O54: the word decodes to nothing, so the step raises `ILLEGAL` and does nothing else. -/
theorem stepOfAnIllegalWordChangesStatusOnly :
    Obligations.StepOfAnIllegalWordChangesStatusOnly := by
  refine ⟨by decide, fun s rest w hp hbad => ?_⟩
  obtain ⟨e, he⟩ := (decode_error_iff w).2 hbad
  have hstep : step s = runCommand w (takeFromPort rest s) := step_of_hostWrite (r := .cmd) hp rfl
  rw [hstep, runCommand_of_error he, raiseError_illegal]
  rfl

/-- R66: a word is the one its four byte lanes make up. -/
theorem wordOfLanes_byteLane (w : Word) :
    wordOfLanes (byteLane w 0) (byteLane w 1) (byteLane w 2) (byteLane w 3) = w := by
  have hw : w.toNat < 2 ^ 32 := w.isLt
  apply BitVec.eq_of_toNat_eq
  simp only [wordOfLanes, byteLane, bitField, BitVec.toNat_ofNat]
  omega

/-- Settles O4: the decoder on bytes decodes the word its lanes make up. -/
theorem byteLanesDecodeAsTheWord : Obligations.ByteLanesDecodeAsTheWord := by
  intro w
  rw [decodeBytes, wordOfLanes_byteLane]

end Sys2Proof.Machine
end

section
/-! Family 30_encoding.md: the decoder and the encoder invert each other. -/

namespace Sys2Proof.Machine

/-! ### The encoder, then the decoder -/

/-- R80 to R82: the fields of every well-formed command's encoding. -/
theorem encodedFields_all (i : Instr) : Laws.EncodedFields.Statement i := by
  cases i with
  | nop => exact Laws.EncodedFields.nop
  | encAm => exact Laws.EncodedFields.encAm
  | encPm => exact Laws.EncodedFields.encPm
  | encTc => exact Laws.EncodedFields.encTc
  | decAm => exact Laws.EncodedFields.decAm
  | rxFeed sym => exact Laws.EncodedFields.rxFeed sym
  | rxReset => exact Laws.EncodedFields.rxReset
  | hamming => exact Laws.EncodedFields.hamming
  | lfsrRd index => exact Laws.EncodedFields.lfsrRd index
  | bcdPack n => exact Laws.EncodedFields.bcdPack n
  | bcdUnpack n => exact Laws.EncodedFields.bcdUnpack n
  | moc => exact Laws.EncodedFields.moc
  | minlen => exact Laws.EncodedFields.minlen
  | softReset => exact Laws.EncodedFields.softReset

/-- R88: a command is decoded from its own opcode and immediate, whatever its operand. -/
theorem decodeFields_opcode_imm8 (i : Instr) : decodeFields (opcode i) (imm8 i) = .ok i := by
  cases i with
  | rxFeed sym => cases sym <;> rfl
  | _ => rfl

/-- Settles O1: the fields of the encoding are the command's opcode and immediate, from which it is
decoded. -/
theorem encodedCommandDecodesToItself : Obligations.EncodedCommandDecodesToItself := by
  intro i hi
  obtain ⟨hop, himm, hhigh⟩ := encodedFields_all i hi
  rw [decode, if_neg (not_not_intro hhigh), hop, himm, decodeFields_opcode_imm8]

/-! ### The decoder, then the encoder -/

/-- A command without an operand is decoded from the immediate 0 only (R83). -/
theorem plainCommand_ok_iff {imm : Nat} {i j : Instr} :
    plainCommand imm i = .ok j ↔ imm = 0 ∧ i = j := by
  by_cases h : imm = 0 <;> simp [plainCommand, h]

/-- R83, R84: the opcode and the immediate a command is decoded from are its own, and the immediate
fits its field. -/
theorem decodeFields_ok {op imm : Nat} {i : Instr} (himm : imm < 256)
    (h : decodeFields op imm = .ok i) :
    i.wellFormed = true ∧ opcode i = op ∧ imm8 i = imm := by
  unfold decodeFields at h
  -- `h_6` is the row of `RX_FEED`, `h_9` to `h_11` those with a free operand, `h_15` the opcodes
  -- without a row.
  split at h
  case h_6 =>
    split at h
    · cases h
    next hhigh =>
      cases h
      have hcode : symCode (symOfCode (imm % 4)) = imm % 4 :=
        symCode_symOfCode _ (Nat.mod_lt _ (by decide))
      exact ⟨rfl, rfl, hcode.trans (by omega)⟩
  case h_9 | h_10 | h_11 =>
    cases h
    exact ⟨decide_eq_true himm, rfl, rfl⟩
  case h_15 => cases h
  all_goals
    obtain ⟨rfl, rfl⟩ := plainCommand_ok_iff.1 h
    exact ⟨rfl, rfl, rfl⟩

/-- A word whose upper half-word is 0 is assembled from its two lower bytes. -/
theorem eq_assembled_of_bitField_high {w : Word} (h : bitField w 16 16 = 0) :
    BitVec.ofNat 32 (bitField w 0 8 + 2 ^ 8 * bitField w 8 8) = w := by
  have hw : w.toNat < 2 ^ 32 := w.isLt
  apply BitVec.eq_of_toNat_eq
  simp only [bitField, BitVec.toNat_ofNat] at h ⊢
  omega

/-- Settles O2: a word that decodes is assembled from its command's opcode and immediate. -/
theorem decodedWordIsItsOnlyEncoding : Obligations.DecodedWordIsItsOnlyEncoding := by
  intro w i h
  unfold decode at h
  split at h
  · cases h
  next hhigh =>
    obtain ⟨hwf, hop, himm⟩ := decodeFields_ok (bitField_lt w 8 8) h
    exact ⟨hwf, by rw [encode, hop, himm, eq_assembled_of_bitField_high (not_not.1 hhigh)]⟩

/-- R88: the words that decode to a command are its encoding, where it has one. -/
theorem decode_eq_ok_iff {w : Word} {i : Instr} :
    decode w = .ok i ↔ i.wellFormed = true ∧ encode i = w := by
  refine ⟨decodedWordIsItsOnlyEncoding w i, ?_⟩
  rintro ⟨hwf, rfl⟩
  exact encodedCommandDecodesToItself i hwf

/-- Settles O3: each word is the encoding of its command. -/
theorem specEncodingsDecode : Obligations.SpecEncodingsDecode := by
  simp only [Obligations.SpecEncodingsDecode, decode_eq_ok_iff]
  decide

/-- Settles O32: the check of the index is the case split; each side is one ending of a command. -/
theorem lfsrReadGivesTheStreamBit : Obligations.LfsrReadGivesTheStreamBit := by
  intro s index
  simp only [exec, execLfsrRd]
  refine ⟨fun hle => ?_, fun hgt => ?_⟩
  · have hbit : BitVec.ofNat 32 (lfsrBit index).toNat = if lfsrBit index = true then 1 else 0 := by
      cases lfsrBit index <;> rfl
    have hlegal : indexLegal index = true := decide_eq_true hle
    rw [checked_of_legal hlegal, complete_eq, hbit]
  · have hillegal : indexLegal index = false := decide_eq_false (Nat.not_le.2 hgt)
    rw [checked_of_illegal hillegal, raiseError_badArg]

end Sys2Proof.Machine
end

section
/-! Family 30_encoding.md: the lines of a host program (R91), as the machine serves them. -/

namespace Sys2Proof.Machine

/-! ### Serving a sequence of register writes -/

/-- A sequence goes on from the next state of its first interaction. -/
theorem serveAll_cons_of_next {e : HostEvent} {events : List HostEvent} {s t : State}
    (h : serveEvent e (takeFromPort s.port s) = .next t) :
    serveAll (e :: events) s = serveAll events t := by
  simp only [serveAll, h]

/-- A sequence that starts with a write to a writable register goes on from the state it leaves. -/
theorem serveAll_cons_hostWrite {r : Reg} {v : Word} {events : List HostEvent} {s t : State}
    (hr : regWritable r = true) (h : writeReg r v (takeFromPort s.port s) = .next t) :
    serveAll (hostWrite r v :: events) s = serveAll events t :=
  serveAll_cons_of_next ((serveEvent_hostWrite r v _ hr).trans h)

/-! ### `SETTV` -/

/-- R24 to R26: the three words of a time value store all its fields, whatever `TV` held. -/
theorem setUt1_setTime_setDate (old tv : TimeValue) :
    setUt1 (setTime (setDate old (dateWord tv)) (timeWord tv)) (ut1Word tv) = tv := by
  obtain ⟨hyear, -, hdays, -⟩ := dateWord_fields tv
  obtain ⟨hhour, -, hminute, -, hdst, -, hls, hly, -⟩ := timeWord_fields tv
  obtain ⟨hut1, -⟩ := ut1Word_fields tv
  simp only [setUt1, setTime, setDate, hyear, hdays, hhour, hminute, hdst, hls, hly, hut1]

/-- Serving the three writes of `SETTV` loads `TV` and leaves an acknowledge. -/
theorem serveAll_setTvEvents (tv : TimeValue) (s : State) :
    serveAll (setTvEvents tv) s = .next { s with tv := tv, response := .done } := by
  rw [setTvEvents, serveAll_cons_hostWrite rfl rfl, serveAll_cons_hostWrite rfl rfl,
    serveAll_cons_hostWrite rfl rfl, serveAll]
  simp only [takeFromPort, setUt1_setTime_setDate]

/-- Settles O16: the run serves the three writes. -/
theorem setTvLoadsTheTimeValue : Obligations.SetTvLoadsTheTimeValue := by
  intro s rest tv hp
  exact (runServesTheAccessesInOrder s (setTvEvents tv) rest hp).trans (serveAll_setTvEvents tv _)

/-! ### `LDAM` -/

/-- Word `w` of the codes of a symbol string, as `LDAM` writes it (R91). -/
def symbolsWord (symbols : List AmSym) (w : Nat) : Word :=
  bufferWord (fun i => symCode (symbols.getD i .unset)) w

/-- Writing word `w` of a string's codes loads the symbols of that word and no other cell. -/
theorem amCell_setAmWord_symbolsWord (am : AmBuf) (symbols : List AmSym) (w : Nat) {i : Nat}
    (hi : i < 61) :
    amCell (setAmWord am w (symbolsWord symbols w)) i =
      if i / 16 = w then symbols.getD i .unset else amCell am i := by
  rw [amCell_setAmWord _ _ _ _ hi]
  split
  next hw =>
    have hcell : 16 * w + i % 16 = i := by omega
    rw [symbolsWord, bitField_bufferWord _ _ _ (Nat.mod_lt _ (by decide)) (by omega)
      (symCode_lt _), hcell, symOfCode_symCode]
  next => rfl

/-- `AM` after the four writes of `LDAM`. -/
def loadedAm (symbols : List AmSym) (am : AmBuf) : AmBuf :=
  [0, 1, 2, 3].foldl (fun b (k : Fin 4) => setAmWord b k.val (symbolsWord symbols k.val)) am

/-- Every cell belongs to one of the four words, so `LDAM` loads them all. -/
theorem amCell_loadedAm (symbols : List AmSym) (am : AmBuf) {i : Nat} (hi : i < 61) :
    amCell (loadedAm symbols am) i = symbols.getD i .unset := by
  simp only [loadedAm, List.foldl_cons, List.foldl_nil, amCell_setAmWord_symbolsWord _ _ _ hi]
  split_ifs
  any_goals rfl
  omega

/-- Serving the four writes of `LDAM` loads `AM` and leaves an acknowledge. -/
theorem serveAll_loadAmEvents (symbols : List AmSym) (s : State) :
    serveAll (loadAmEvents symbols) s =
      .next { s with am := loadedAm symbols s.am, response := .done } := by
  simp only [loadAmEvents, List.map_cons, List.map_nil]
  rw [serveAll_cons_hostWrite rfl rfl, serveAll_cons_hostWrite rfl rfl,
    serveAll_cons_hostWrite rfl rfl, serveAll_cons_hostWrite rfl rfl, serveAll]
  simp only [takeFromPort, loadedAm, symbolsWord, List.foldl_cons, List.foldl_nil]

/-- Settles O17: the run serves the four writes, which load every cell. -/
theorem loadAmLoadsTheSymbols : Obligations.LoadAmLoadsTheSymbols := by
  intro s rest symbols _ hp
  have hrun := (runServesTheAccessesInOrder s (loadAmEvents symbols) rest hp).trans
    (serveAll_loadAmEvents symbols _)
  exact ⟨_, hrun, rfl, fun i hi => amCell_loadedAm symbols s.am hi⟩

/-! ### `FEEDS` -/

/-- Serving a command line is running the command, acknowledged (R90). -/
theorem serveEvent_hostCommand {i : Instr} (hi : i.wellFormed = true) (s : State) :
    serveEvent (hostCommand i) s = exec i s := by
  rw [hostCommand, serveEvent_hostWrite .cmd _ _ rfl]
  exact runCommand_of_decode (encodedCommandDecodesToItself i hi) s

/-- A command leaves the answer of the bus as it was: by `exec_overBus` it does not see the bus. -/
theorem exec_next_response {i : Instr} {s t : State} (h : exec i s = .next t) :
    t.response = s.response := by
  have hbus : exec i s = mapNext (overBus s.port s.response) (exec i s) :=
    exec_overBus i s.port s.response s
  rw [h, mapNext_next] at hbus
  have ht : t = overBus s.port s.response t := Host.Outcome.next.inj hbus
  exact (congrArg State.response ht).trans rfl

/-- Where the last answer is an acknowledge, serving the command lines of `FEEDS` is feeding the
symbols, whatever comes of it. -/
theorem serveAll_feedEvents (symbols : List AmSym) {s : State} (hs : s.response = .done) :
    serveAll (feedEvents symbols) s = feedAll symbols s := by
  induction symbols generalizing s with
  | nil => rfl
  | cons v symbols ih =>
    have htake : takeFromPort s.port s = s := by rw [takeFromPort, ← hs]
    rw [feedEvents, List.map_cons, serveAll, htake, serveEvent_hostCommand rfl, feedAll]
    cases ht : exec (.rxFeed v) s with
    | next t => exact ih ((exec_next_response ht).trans hs)
    | fault r => rfl
    | refused r => rfl

/-- What a non-empty sequence does never depends on the answer before it. -/
theorem serveAll_response {events : List HostEvent} (h : events ≠ []) (s : State)
    (response : BusResponse) :
    serveAll events { s with response := response } = serveAll events s := by
  cases events with
  | nil => exact absurd rfl h
  | cons e events => rfl

/-- Settles O18: the run serves the command lines, which feeds the symbols. -/
theorem feedsRunTheSymbolsInOrder : Obligations.FeedsRunTheSymbolsInOrder := by
  intro s rest symbols t hne hp hfeed
  have hevents : feedEvents symbols ≠ [] := by simpa [feedEvents] using hne
  have hlength : (feedEvents symbols).length = symbols.length := List.length_map _
  have hrun := runServesTheAccessesInOrder s (feedEvents symbols) rest hp
  rw [hlength, ← serveAll_response hevents _ .done, serveAll_feedEvents symbols rfl] at hrun
  exact hrun.trans hfeed

end Sys2Proof.Machine
end

section
/-! Family 40_primitives.md, the layer its proofs share, the parity generator and the LFSR stream. -/

namespace Sys2Proof.Machine

/-! ### The two endings of a primitive -/

/-- R245: a primitive whose operands pass its check changes `STATUS` and what its effect changes. -/
theorem checked_complete_of_legal {legal : Bool} (h : legal = true) (s effect : State)
    (valid emit : Bool) :
    checked legal s (complete effect valid emit) =
      .next { effect with status := succeeded effect.status valid emit } := by
  rw [checked_of_legal h, complete_eq]

/-- R246: a primitive whose operands fail its check changes `STATUS` only. -/
theorem checked_of_not_legal {legal : Bool} (h : ¬legal = true) (s effect : State) :
    checked legal s effect = .next { s with status := badArgStatus } := by
  rw [checked_of_illegal (Bool.eq_false_iff.2 h), raiseError_badArg]

/-! ### The parity generator -/

/-- R112: the check of `HAMMING`, by bits. -/
theorem hammingLegal_iff (opa : Word) :
    hammingLegal opa = true ↔ ∀ k, 26 ≤ k → opa.getLsbD k = false :=
  decide_eq_true_iff.trans (toNat_lt_iff opa 26)

/-- The parity in a register, by bits. -/
theorem getLsbD_ofNat_hamming (v j : Nat) :
    (BitVec.ofNat 32 (hamming v)).getLsbD j =
      (decide (j < 5) &&
        decide ((hammingRows.getD j []).countP (fun i => v.testBit i) % 2 = 1)) := by
  rw [BitVec.getLsbD_ofNat, hamming_testBit]
  by_cases hj : j < 5
  · simp [hj, show j < 32 by omega]
  · simp [hj]

/-- Settles O28: the check is the case split; a parity bit counts the ones its row lists. -/
theorem hammingComputesTheRowParities : Obligations.HammingComputesTheRowParities := by
  intro s
  simp only [exec, execHamming]
  refine ⟨fun ⟨k, hk, hone⟩ => ?_, fun hzero => ?_⟩
  · refine checked_of_not_legal (fun hlegal => ?_) _ _
    rw [(hammingLegal_iff s.opa).1 hlegal k hk] at hone
    cases hone
  · refine ⟨_, checked_complete_of_legal ((hammingLegal_iff s.opa).2 hzero) _ _ _ _, rfl,
      fun j hj => ?_, fun j hj => ?_⟩
    · refine (getLsbD_ofNat_hamming s.opa.toNat j).trans ?_
      rw [decide_eq_true hj, Bool.true_and]
      rfl
    · refine (getLsbD_ofNat_hamming s.opa.toNat j).trans ?_
      rw [decide_eq_false (Nat.not_lt.2 hj), Bool.false_and]

/-- The parity of a row is linear. -/
theorem rowParity_xor (row : List Nat) (v w : Nat) :
    rowParity row (v ^^^ w) = (rowParity row v ^^ rowParity row w) := by
  induction row using List.reverseRecOn with
  | nil => rfl
  | append_singleton row i ih =>
    simp only [rowParity, List.foldl_append, List.foldl_cons, List.foldl_nil] at ih ⊢
    rw [ih, Nat.testBit_xor]
    simp only [Bool.xor_assoc, Bool.xor_left_comm]

/-- R111: the parity generator is linear. -/
theorem hamming_xor (v w : Nat) : hamming (v ^^^ w) = hamming v ^^^ hamming w := by
  apply Nat.eq_of_testBit_eq
  intro j
  simp only [hamming, Nat.testBit_xor, testBit_bitsToNat, rowParity_xor]
  cases decide (j < 5) <;> simp

/-- Changing the bits of `w` changes a parity by the parity of `w`. -/
theorem hamming_xor_eq_iff (v w w' : Nat) :
    hamming (v ^^^ w) = hamming (v ^^^ w') ↔ hamming w = hamming w' := by
  rw [hamming_xor, hamming_xor, Nat.xor_right_inj]

/-- R110: no column of the table is empty. -/
theorem hamming_two_pow_ne_zero : ∀ i < 26, hamming (2 ^ i) ≠ hamming 0 := by decide

/-- R110: no two columns of the table are alike. -/
theorem hamming_two_pow_inj :
    ∀ i < 26, ∀ j < 26, hamming (2 ^ i) = hamming (2 ^ j) → i = j := by decide

/-- Settles O29: the parity is linear, so a change of bit `i` shows as column `i` of R110's table. -/
theorem hammingTellsSingleBitChangesApart : Obligations.HammingTellsSingleBitChangesApart := by
  intro v i j _ hi hj
  refine ⟨fun h => ?_, fun hne h => ?_⟩
  · refine hamming_two_pow_ne_zero i hi ((hamming_xor_eq_iff v _ _).1 ?_)
    rwa [Nat.xor_zero]
  · exact hne (hamming_two_pow_inj i hi j hj ((hamming_xor_eq_iff v _ _).1 h))

/-! ### The LFSR stream -/

theorem length_lfsrBits (n : Nat) (b0 b1 b2 b3 b4 b5 b6 : Bool) :
    (lfsrBits n b0 b1 b2 b3 b4 b5 b6).length = n := by
  induction n generalizing b0 b1 b2 b3 b4 b5 b6 with
  | zero => rfl
  | succ n ih => rw [lfsrBits, List.length_cons, ih]

/-- R114: whatever the window, each bit after it is made of the bits 7, 6, 5 and 2 places before. -/
theorem lfsrBits_recurrence (n i : Nat) (h : i + 7 < n) (b0 b1 b2 b3 b4 b5 b6 : Bool) :
    let bits := lfsrBits n b0 b1 b2 b3 b4 b5 b6
    bits.getD (i + 7) false =
      (bits.getD i false ^^ bits.getD (i + 1) false ^^ bits.getD (i + 2) false
        ^^ bits.getD (i + 5) false) := by
  induction i generalizing n b0 b1 b2 b3 b4 b5 b6 with
  | zero =>
    obtain ⟨m, rfl⟩ : ∃ m, n = m + 8 := ⟨n - 8, by omega⟩
    rfl
  | succ i ih =>
    obtain ⟨m, rfl⟩ : ∃ m, n = m + 1 := ⟨n - 1, by omega⟩
    exact ih m (by omega) b1 b2 b3 b4 b5 b6 _

/-- R114 for the stream itself. -/
theorem lfsrBit_recurrence {i : Nat} (h : i < 255) (h7 : 7 ≤ i) :
    lfsrBit i = (lfsrBit (i - 7) ^^ lfsrBit (i - 6) ^^ lfsrBit (i - 5) ^^ lfsrBit (i - 2)) := by
  obtain ⟨k, rfl⟩ : ∃ k, i = k + 7 := ⟨i - 7, by omega⟩
  exact lfsrBits_recurrence 255 k h true true true true true true true

/-- R114: the seed. -/
theorem lfsrBit_seed : ∀ i < 7, lfsrBit i = true := by decide

/-- R116: the seed stands in the stream again after 127 bits. -/
theorem lfsrBit_seed_again : ∀ i < 7, lfsrBit (i + 127) = true := by decide +kernel

/-- Settles O30: the recurrence holds along a stream of any length from any window. -/
theorem lfsrFollowsTheRecurrence : Obligations.LfsrFollowsTheRecurrence :=
  ⟨length_lfsrBits 255 true true true true true true true, lfsrBit_seed,
    fun _ => lfsrBit_recurrence⟩

/-- R116: bits 127 on follow the recurrence from the same seed as bits 0 on. -/
theorem lfsrBit_add_127 (i : Nat) (hi : i < 128) : lfsrBit i = lfsrBit (i + 127) := by
  induction i using Nat.strong_induction_on with
  | _ i ih =>
    by_cases h7 : i < 7
    · rw [lfsrBit_seed i h7, lfsrBit_seed_again i h7]
    · have hback : ∀ d, 1 ≤ d → d ≤ 7 → lfsrBit (i - d) = lfsrBit (i + 127 - d) := by
        intro d h1 hd
        rw [ih (i - d) (by omega) (by omega), Nat.sub_add_comm (by omega)]
      rw [lfsrBit_recurrence (i := i) (by omega) (by omega),
        lfsrBit_recurrence (i := i + 127) (by omega) (by omega),
        hback 7 (by decide) (by decide), hback 6 (by decide) (by decide),
        hback 5 (by decide) (by decide), hback 2 (by decide) (by decide)]

/-- Settles O31: the period by induction from the seed that returns; the ones are counted. -/
theorem lfsrHasPeriod127 : Obligations.LfsrHasPeriod127 :=
  ⟨lfsrBit_add_127, by decide +kernel⟩

end Sys2Proof.Machine
end

section
/-! Family 40_primitives.md: BCD. -/

namespace Sys2Proof.Machine

/-! ### `BCD_PACK` -/

/-- R87, as the statements write it. -/
theorem widthLegal_iff (n : Nat) : widthLegal n = true ↔ 1 ≤ n ∧ n ≤ 32 := by
  simp only [widthLegal, Bool.and_eq_true, decide_eq_true_eq]

/-- Settles O33: the check is the case split; the bits are those of `bcdPack`, which a width of 32
does not cut off. -/
theorem bcdPackGivesTheDigits : Obligations.BcdPackGivesTheDigits := by
  intro s n
  simp only [exec, execBcdPack, ← widthLegal_iff]
  refine ⟨fun hlegal => ?_, fun hillegal => checked_of_not_legal hillegal _ _⟩
  refine ⟨_, checked_complete_of_legal hlegal _ _ _ _, rfl, fun k => ?_⟩
  obtain ⟨-, hn⟩ := (widthLegal_iff n).1 hlegal
  change (BitVec.ofNat 32 (bcdPack s.opa.toNat n)).getLsbD k = _
  rw [BitVec.getLsbD_ofNat, bcdPack_testBit]
  by_cases hk : k < n
  · simp [hk, show k < 32 by omega]
  · simp [hk]

/-! ### `BCD_UNPACK` -/

/-- R106: the check of `BCD_UNPACK`, by bits. -/
theorem unpackLegal_iff (n : Nat) (opa : Word) :
    unpackLegal n opa = true ↔ (1 ≤ n ∧ n ≤ 32) ∧ ∀ k, n ≤ k → opa.getLsbD k = false := by
  rw [unpackLegal, Bool.and_eq_true, widthLegal_iff, decide_eq_true_iff, toNat_lt_iff]

/-- R103: with no digit above 9, unpacking sums the digits. -/
theorem bcdUnpack_of_digits {b n : Nat} (h : ∀ j < (n + 3) / 4, bcdGroup b n j ≤ 9) :
    bcdUnpack b n =
      some ((List.range ((n + 3) / 4)).map fun j => bcdGroup b n j * 10 ^ j).sum := by
  rw [bcdUnpack_eq, if_pos h]

/-- R103: with a digit above 9 there is no result. -/
theorem bcdUnpack_of_not_digits {b n : Nat} (h : ∃ j < (n + 3) / 4, 9 < bcdGroup b n j) :
    bcdUnpack b n = none := by
  obtain ⟨j, hj, h9⟩ := h
  rw [bcdUnpack_eq, if_neg fun hall => Nat.not_lt.2 (hall j hj) h9]

/-- The sum of the digits of a legal width fits a register. -/
theorem sum_bcdGroup_lt {b n : Nat} (hn : n ≤ 32) (h : ∀ j < (n + 3) / 4, bcdGroup b n j ≤ 9) :
    ((List.range ((n + 3) / 4)).map fun j => bcdGroup b n j * 10 ^ j).sum < 2 ^ 32 :=
  calc
    _ < 10 ^ ((n + 3) / 4) := sum_digits_lt _ _ h
    _ ≤ 10 ^ 8 := Nat.pow_le_pow_right (by decide) (by omega)
    _ < 2 ^ 32 := by decide

/-- Settles O34: the check and the digits are the case split; each case is one ending of the
command. -/
theorem bcdUnpackSumsTheDigits : Obligations.BcdUnpackSumsTheDigits := by
  intro s n
  simp only [exec, execBcdUnpack, ← unpackLegal_iff]
  refine ⟨fun hlegal hdigits => ?_, fun hlegal habove => ?_,
    fun hillegal => checked_of_not_legal hillegal _ _⟩
  · obtain ⟨⟨-, hn⟩, -⟩ := (unpackLegal_iff n s.opa).1 hlegal
    rw [bcdUnpack_of_digits hdigits]
    refine ⟨_, checked_complete_of_legal hlegal _ _ _ _, rfl, ?_⟩
    exact (BitVec.toNat_ofNat _ _).trans (Nat.mod_eq_of_lt (sum_bcdGroup_lt hn hdigits))
  · rw [bcdUnpack_of_not_digits habove, checked_complete_of_legal hlegal]
    rfl

/-! ### Packing and unpacking are inverse -/

/-- Summing the lowest `m` digits of a number gives its remainder. -/
theorem sum_digit_eq_mod (v m : Nat) :
    ((List.range m).map fun j => digit v j * 10 ^ j).sum = v % 10 ^ m := by
  induction m with
  | zero => simp [Nat.mod_one]
  | succ m ih =>
    rw [List.range_succ, List.map_append, List.sum_append, ih, List.map_singleton,
      List.sum_singleton, Nat.mod_pow_succ, digit, Nat.mul_comm]

/-- The digits of a sum of digits are those digits. -/
theorem digit_sum_digits (digitAt : Nat → Nat) {m : Nat} (h : ∀ j < m, digitAt j ≤ 9) {j : Nat}
    (hj : j < m) : digit ((List.range m).map fun i => digitAt i * 10 ^ i).sum j = digitAt j := by
  induction m with
  | zero => omega
  | succ m ih =>
    have hlow : ∀ i < m, digitAt i ≤ 9 := fun i hi => h i (by omega)
    rw [List.range_succ, List.map_append, List.sum_append, List.map_singleton, List.sum_singleton]
    rcases Nat.lt_succ_iff_lt_or_eq.1 hj with hlt | rfl
    · -- the digit added stands above place `j` and leaves it as it is
      have hplaces : digitAt m * 10 ^ m = 10 ^ j * (10 * (digitAt m * 10 ^ (m - (j + 1)))) := by
        rw [← pow_mul_pow_sub 10 (Nat.succ_le_of_lt hlt), Nat.pow_succ]
        ring
      rw [digit, hplaces, Nat.add_mul_div_left _ _ (Nat.pow_pos (by decide)),
        Nat.add_mul_mod_self_left]
      exact ih hlow hlt
    · rw [digit, Nat.add_mul_div_right _ _ (Nat.pow_pos (by decide)),
        Nat.div_eq_of_lt (sum_digits_lt digitAt j hlow), Nat.zero_add, Nat.mod_eq_of_lt]
      exact Nat.lt_succ_of_le (h j (by omega))

/-- A packed group holds what its bits can hold of its digit. -/
theorem bcdGroup_bcdPack (v n j : Nat) :
    bcdGroup (bcdPack v n) n j = digit v j % 2 ^ min 4 (n - 4 * j) := by
  apply Nat.eq_of_testBit_eq
  intro i
  rw [bcdGroup_testBit, Nat.testBit_mod_two_pow, bcdPack_testBit, ← digit]
  by_cases hi : i < min 4 (n - 4 * j)
  · simp [hi, show 4 * j + i < n by omega, show (4 * j + i) / 4 = j by omega,
      show (4 * j + i) % 4 = i by omega]
  · simp [hi]

theorem digit_lt (v j : Nat) : digit v j < 10 := Nat.mod_lt _ (by decide)

/-- Every digit of a number that fits `n` bits fits its group: the full groups take any digit, and the
highest, of `n % 4` bits, takes the one above them. -/
theorem digit_lt_group {v n j : Nat} (hv : v < 2 ^ (n % 4) * 10 ^ (n / 4)) (hj : j < (n + 3) / 4) :
    digit v j < 2 ^ min 4 (n - 4 * j) := by
  by_cases hfull : 4 ≤ n - 4 * j
  · rw [Nat.min_eq_left hfull]
    exact Nat.lt_trans (digit_lt v j) (by decide)
  · obtain rfl : j = n / 4 := by omega
    rw [show min 4 (n - 4 * (n / 4)) = n % 4 by omega]
    exact Nat.lt_of_le_of_lt (Nat.mod_le _ _)
      (Nat.div_lt_of_lt_mul (by rwa [Nat.mul_comm] at hv))

/-- A number whose digits fit `n` bits has no digit above their groups. -/
theorem lt_ten_pow_groups {v n : Nat} (hv : v < 2 ^ (n % 4) * 10 ^ (n / 4)) :
    v < 10 ^ ((n + 3) / 4) := by
  refine Nat.lt_of_lt_of_le hv ?_
  by_cases h0 : n % 4 = 0
  · rw [h0, show (n + 3) / 4 = n / 4 by omega, Nat.pow_zero, Nat.one_mul]
  · have htop : 2 ^ (n % 4) ≤ 10 :=
      Nat.le_trans (Nat.pow_le_pow_right (by decide) (show n % 4 ≤ 3 by omega)) (by decide)
    rw [show (n + 3) / 4 = n / 4 + 1 by omega, Nat.pow_succ, Nat.mul_comm]
    exact Nat.mul_le_mul_left _ htop

/-- A number whose digits fit comes back: each packed group is its digit. -/
theorem bcdUnpack_bcdPack {v n : Nat} (hv : v < 2 ^ (n % 4) * 10 ^ (n / 4)) :
    bcdUnpack (bcdPack v n) n = some v := by
  have hgroup : ∀ j < (n + 3) / 4, bcdGroup (bcdPack v n) n j = digit v j := fun j hj => by
    rw [bcdGroup_bcdPack, Nat.mod_eq_of_lt (digit_lt_group hv hj)]
  have hdigits : ∀ j < (n + 3) / 4, bcdGroup (bcdPack v n) n j ≤ 9 := fun j hj => by
    rw [hgroup j hj]
    exact Nat.le_of_lt_succ (digit_lt v j)
  have hsum : ((List.range ((n + 3) / 4)).map fun j => bcdGroup (bcdPack v n) n j * 10 ^ j) =
      (List.range ((n + 3) / 4)).map fun j => digit v j * 10 ^ j :=
    List.map_congr_left fun j hj => by rw [hgroup j (List.mem_range.1 hj)]
  rw [bcdUnpack_of_digits hdigits, hsum, sum_digit_eq_mod, Nat.mod_eq_of_lt (lt_ten_pow_groups hv)]

/-- An `n`-bit value that unpacks is the packing of what it unpacks to: its groups are the digits. -/
theorem bcdPack_of_bcdUnpack {b n v : Nat} (hb : b < 2 ^ n) (h : bcdUnpack b n = some v) :
    bcdPack v n = b := by
  rw [bcdUnpack_eq] at h
  split at h
  next hdigits =>
    cases h
    apply Nat.eq_of_testBit_eq
    intro k
    rw [bcdPack_testBit, ← digit]
    by_cases hk : k < n
    · rw [digit_sum_digits _ hdigits (show k / 4 < (n + 3) / 4 by omega), bcdGroup_testBit,
        Nat.div_add_mod]
      simp [hk, show k % 4 < min 4 (n - 4 * (k / 4)) by omega]
    · have hzero : b.testBit k = false :=
        Nat.testBit_lt_two_pow (Nat.lt_of_lt_of_le hb
          (Nat.pow_le_pow_right Nat.two_pos (Nat.not_lt.1 hk)))
      simp [hk, hzero]
  next => cases h

/-- Settles O35: the two directions. -/
theorem bcdUnpackInvertsPack : Obligations.BcdUnpackInvertsPack :=
  ⟨fun _ _ => bcdUnpack_bcdPack, fun _ _ _ => bcdPack_of_bcdUnpack⟩

end Sys2Proof.Machine
end

section
/-! Family 40_primitives.md: the arithmetic on time values. -/

namespace Sys2Proof.Machine

/-! ### The minute of century -/

/-- R122, as the statements write it. -/
theorem gregLeap_iff (y : Nat) :
    gregLeap y = true ↔ y % 4 = 0 ∧ (y % 100 ≠ 0 ∨ y % 400 = 0) := by
  simp [gregLeap]

/-- R123: the days of a year, as the statements write them. -/
theorem yearLength_eq (y : Nat) :
    yearLength y = if y % 4 = 0 ∧ (y % 100 ≠ 0 ∨ y % 400 = 0) then 366 else 365 := by
  simp only [← gregLeap_iff, yearLength]
  cases gregLeap y <;> rfl

/-- Only a year that 4 divides has a day 366. -/
theorem yearLength_le (y : Nat) : yearLength y ≤ 365 + (if y % 4 = 0 then 1 else 0) := by
  rw [yearLength_eq]
  split
  next h => simp [h.1]
  next => omega

/-- R123: the century began with the last year that 100 divides. -/
theorem centuryStart_eq (y : Nat) : centuryStart y = y - y % 100 := by
  rw [centuryStart]
  omega

theorem daysBeforeYear_eq (y : Nat) :
    daysBeforeYear y = ((List.range (y % 100)).map fun k => yearLength (y - y % 100 + k)).sum := by
  rw [daysBeforeYear, centuryStart_eq, Nat.sub_sub_self (Nat.mod_le y 100)]

/-- Of `c` years from one that 4 divides, every fourth at most has 366 days. -/
theorem sum_yearLength_le {start : Nat} (hstart : start % 4 = 0) (c : Nat) :
    ((List.range c).map fun k => yearLength (start + k)).sum ≤ 365 * c + (c + 3) / 4 := by
  induction c with
  | zero => simp
  | succ c ih =>
    have hyear := yearLength_le (start + c)
    rw [List.range_succ, List.map_append, List.sum_append, List.map_singleton, List.sum_singleton]
    split at hyear
    · omega
    · omega

/-- R123: the days of the century before a year. -/
theorem daysBeforeYear_le (y : Nat) :
    daysBeforeYear y ≤ 365 * (y % 100) + (y % 100 + 3) / 4 := by
  rw [daysBeforeYear_eq]
  exact sum_yearLength_le (by omega) _

/-- R129: day 366 is the last there is, whatever `LY` says. -/
theorem days_le_366 {days : Nat} {ly : Bool} (h : days ≤ if ly = true then 366 else 365) :
    days ≤ 366 := by
  cases ly
  · exact Nat.le_succ_of_le h
  · exact h

/-- R130: the minute of century fits the 26 bits the PM field and the parity generator take. -/
theorem minuteOfCentury_lt {tv : TimeValue} (h : legalTv tv) : minuteOfCentury tv < 2 ^ 26 := by
  obtain ⟨-, -, -, hdays, hhour, hminute, -⟩ := h
  have hbefore := daysBeforeYear_le tv.year.toNat
  have h366 := days_le_366 hdays
  rw [minuteOfCentury]
  omega

/-- R123's bound: where day 366 falls in a leap year, it is no later than the century's last day. -/
theorem minuteOfCentury_lt_century {tv : TimeValue} (h : legalTv tv)
    (hleap : tv.days.toNat = 366 → tv.year.toNat % 4 = 0) : minuteOfCentury tv < 36525 * 1440 := by
  obtain ⟨-, -, hfirst, hdays, hhour, hminute, -⟩ := h
  have hbefore := daysBeforeYear_le tv.year.toNat
  have h366 := days_le_366 hdays
  have hday : daysBeforeYear tv.year.toNat + tv.days.toNat ≤ 36525 := by
    by_cases hlast : tv.year.toNat % 100 = 99
    · have : tv.days.toNat ≠ 366 := fun h => by
        have := hleap h
        omega
      omega
    · omega
  rw [minuteOfCentury]
  omega

/-- Day 366 of 2099, which `LY` = 1 makes legal (assumption log 12). -/
def lastDayOf2099 : TimeValue :=
  { TimeValue.zero with year := 2099, days := 366, ly := true }

/-- Settles O37: 99 years before the last hold at most 25 leap days, which leaves room for day 366;
day 366 of 2099 is one day more than the century has. -/
theorem minuteOfCenturyFits : Obligations.MinuteOfCenturyFits :=
  ⟨fun _ => minuteOfCentury_lt,
    fun _ h hleap => minuteOfCentury_lt_century h fun h366 => (hleap h366).1,
    lastDayOf2099, by decide⟩

/-- Settles O36: the check is the case split; the number fits the register. -/
theorem mocCountsTheMinutes : Obligations.MocCountsTheMinutes := by
  intro s
  simp only [exec, execMoc, ← yearLength_eq]
  refine ⟨fun hlegal => ?_,
    fun hillegal => checked_of_not_legal (mt (validTv_iff s.tv).1 hillegal) _ _⟩
  refine ⟨_, checked_complete_of_legal ((validTv_iff s.tv).2 hlegal) _ _ _ _, rfl, ?_⟩
  have hfits : minuteOfCentury s.tv < 2 ^ 32 :=
    Nat.lt_trans (minuteOfCentury_lt hlegal) (by decide)
  rw [← daysBeforeYear_eq]
  exact (BitVec.toNat_ofNat _ _).trans (Nat.mod_eq_of_lt hfits)

/-! ### The length of a minute -/

/-- R120: 60 seconds outside the flagged leap minute, and in it 61 or 59, by R127. -/
theorem minuteLength_eq (whenNonneg : Bool) (tv : TimeValue) :
    minuteLength whenNonneg tv =
      if leapMinute tv then (if insertionWhen whenNonneg tv then 61 else 59) else 60 := by
  simp only [leapMinute_iff, insertionWhen_iff, minuteLength]
  cases tv.ls
  · simp
  · cases tv.hour.toNat == 23 && tv.minute.toNat == 59
    · simp
    · cases endOfMonth tv.days.toNat tv.ly <;> simp

theorem minuteLength_of_insertion {whenNonneg : Bool} {tv : TimeValue} (hm : leapMinute tv)
    (hi : insertionWhen whenNonneg tv) : minuteLength whenNonneg tv = 61 := by
  rw [minuteLength_eq, if_pos hm, if_pos hi]

theorem minuteLength_of_deletion {whenNonneg : Bool} {tv : TimeValue} (hm : leapMinute tv)
    (hi : ¬insertionWhen whenNonneg tv) : minuteLength whenNonneg tv = 59 := by
  rw [minuteLength_eq, if_pos hm, if_neg hi]

theorem minuteLength_of_not_leapMinute (whenNonneg : Bool) {tv : TimeValue} (hm : ¬leapMinute tv) :
    minuteLength whenNonneg tv = 60 := by
  rw [minuteLength_eq, if_neg hm]

/-- R125: `MINLEN` on a legal time value. -/
theorem execMinlen_of_legal {s : State} (h : legalTv s.tv) {len : Nat} (hlen : lengthOf s.tv = len) :
    execMinlen s =
      .next { s with res := BitVec.ofNat 32 len, status := succeeded s.status false false } := by
  rw [execMinlen, checked_complete_of_legal ((validTv_iff s.tv).2 h), hlen]

/-- Settles O38: the three lengths of `minuteLength`, for the parameter's value and for both. -/
theorem minlenGivesTheMinuteLength : Obligations.MinlenGivesTheMinuteLength := by
  refine ⟨fun s => ⟨fun hlegal hm hi => ?_, fun hlegal hm hi => ?_, fun hlegal hm => ?_,
      fun hillegal => ?_⟩,
    fun _ _ => ⟨minuteLength_of_insertion, minuteLength_of_deletion,
      minuteLength_of_not_leapMinute _⟩⟩
  · exact execMinlen_of_legal hlegal (minuteLength_of_insertion hm hi)
  · exact execMinlen_of_legal hlegal (minuteLength_of_deletion hm hi)
  · exact execMinlen_of_legal hlegal (minuteLength_of_not_leapMinute _ hm)
  · exact checked_of_not_legal (mt (validTv_iff s.tv).1 hillegal) _ _

end Sys2Proof.Machine
end

section
/-! Family 40_primitives.md: what the primitives put into the PM channel of a regular minute. -/

namespace Sys2Proof.Machine

/-! ### Bits at positions -/

/-- R161: the minutes that are not extended, as the statements write them. -/
theorem extendedMinute_eq_false_iff (minute : Nat) :
    extendedMinute minute = false ↔
      ¬((10 ≤ minute ∧ minute ≤ 15) ∨ (40 ≤ minute ∧ minute ≤ 45)) := by
  rw [← Bool.not_eq_true]
  simp [extendedMinute]

/-- Assignments of the bits of `code`, each given by its position and its bit, hold the assignment of
a bit at its position. -/
theorem mem_bitWrites {α : Type} {l : List α} {pos bit : α → Nat} (code : Nat) {i b : Nat}
    (h : ∃ p ∈ l, pos p = i ∧ bit p = b) :
    (i, pmSymOfBit (code.testBit b)) ∈ l.map fun p => (pos p, pmSymOfBit (code.testBit (bit p))) := by
  obtain ⟨p, hp, rfl, rfl⟩ := h
  exact List.mem_map_of_mem hp

/-- The positions carry `code` in a regular minute whose assignments place its bits there, the first
position the highest. -/
theorem pmCarries_of_mem {tv : TimeValue} {dn : BitVec 6} {len code : Nat} {positions : List Nat}
    (hx : extendedMinute tv.minute.toNat = false) (hpos : ∀ i ∈ positions, i < 61)
    (hmem : ∀ k < positions.length,
      (positions.getD k 0, pmSymOfBit (code.testBit (positions.length - 1 - k)))
        ∈ regularWrites tv dn len) :
    pmCarries (pmEncode tv dn len) positions code := by
  intro k hk
  refine pmCell_regular (hpos _ ?_) hx (hmem k hk)
  rw [List.getD_eq_getElem _ _ hk]
  exact List.getElem_mem hk

/-! ### The fields of a regular minute -/

section
variable {tv : TimeValue} {dn : BitVec 6} {len : Nat}

/-- R162. -/
theorem pmCarries_sync (hx : extendedMinute tv.minute.toNat = false) :
    pmCarries (pmEncode tv dn len) (List.range 13) syncWord := by
  have hbits : ∀ k < 13, ∃ p ∈ List.range 13, p = (List.range 13).getD k 0 ∧ 12 - p = 12 - k := by
    decide
  exact pmCarries_of_mem hx (by decide) fun k hk =>
    mem_regularWrites.2 (.inl (mem_bitWrites _ (hbits k hk)))

/-- R163. -/
theorem pmCarries_parity (hx : extendedMinute tv.minute.toNat = false) :
    pmCarries (pmEncode tv dn len) [13, 14, 15, 16, 17] (hamming (minuteOfCentury tv)) := by
  have hbits : ∀ k < 5, ∃ p ∈ List.range 5,
      13 + p = [13, 14, 15, 16, 17].getD k 0 ∧ 4 - p = 4 - k := by
    decide
  exact pmCarries_of_mem hx (by decide) fun k hk =>
    mem_regularWrites.2 (.inr (.inl (mem_bitWrites _ (hbits k hk))))

/-- R164: each pair of the table is one cell. -/
theorem pmCell_moc (hx : extendedMinute tv.minute.toNat = false) {i b : Nat}
    (h : (i, b) ∈ mocPositions) :
    pmCell (pmEncode tv dn len) i = pmSymOfBit ((minuteOfCentury tv).testBit b) := by
  have hpos : ∀ p ∈ mocPositions, p.1 < 61 := by decide
  exact pmCell_regular (hpos _ h) hx
    (mem_regularWrites.2 (.inr (.inr (.inl (mem_bitWrites _ ⟨_, h, rfl, rfl⟩)))))

/-- R164: the 26 bits of the minute of century, but for the second copy of bit 0. -/
theorem pmCarries_moc (hx : extendedMinute tv.minute.toNat = false) :
    pmCarries (pmEncode tv dn len)
      [18, 20, 21, 22, 23, 24, 25, 26, 27, 28, 30, 31, 32, 33, 34, 35, 36, 37, 38, 40, 41, 42, 43,
        44, 45, 46] (minuteOfCentury tv) := by
  have hbits : ∀ k < 26,
      (([18, 20, 21, 22, 23, 24, 25, 26, 27, 28, 30, 31, 32, 33, 34, 35, 36, 37, 38, 40, 41, 42, 43,
        44, 45, 46] : List Nat).getD k 0, 25 - k) ∈ mocPositions := by
    decide
  exact fun k hk => pmCell_moc hx (hbits k hk)

/-- R164: position 19 repeats bit 0 of the minute of century, which position 46 carries. -/
theorem pmCell_moc_repeat (hx : extendedMinute tv.minute.toNat = false) :
    pmCell (pmEncode tv dn len) 19 = pmCell (pmEncode tv dn len) 46 := by
  rw [pmCell_moc (b := 0) hx (by decide), pmCell_moc (b := 0) hx (by decide)]

/-- R165. -/
theorem pmCell_reserved (hx : extendedMinute tv.minute.toNat = false) :
    pmCell (pmEncode tv dn len) 29 = .zero ∧ pmCell (pmEncode tv dn len) 39 = .one := by
  have hmem : ∀ w ∈ reservedWrites, w ∈ regularWrites tv dn len := fun _ hw =>
    mem_regularWrites.2 (.inr (.inr (.inr (.inl hw))))
  exact ⟨pmCell_regular (by decide) hx (hmem _ (by decide)),
    pmCell_regular (by decide) hx (hmem _ (by decide))⟩

/-- R167. -/
theorem pmCarries_dstLs (hx : extendedMinute tv.minute.toNat = false) :
    pmCarries (pmEncode tv dn len) [47, 48, 50, 51, 52] (dstLsCode tv) := by
  have hbits : ∀ k < 5, ∃ p ∈ dstLsPositions,
      p.1 = [47, 48, 50, 51, 52].getD k 0 ∧ p.2 = 4 - k := by
    decide
  exact pmCarries_of_mem hx (by decide) fun k hk =>
    mem_regularWrites.2 (.inr (.inr (.inr (.inr (.inl (mem_bitWrites _ (hbits k hk)))))))

/-- R168. -/
theorem pmCell_notice (hx : extendedMinute tv.minute.toNat = false) :
    pmCell (pmEncode tv dn len) 49 = .one :=
  pmCell_regular (by decide) hx
    (mem_regularWrites.2 (.inr (.inr (.inr (.inr (.inr (.inl (List.mem_singleton.2 rfl))))))))

/-- R169. -/
theorem pmCarries_dstNext (hx : extendedMinute tv.minute.toNat = false) :
    pmCarries (pmEncode tv dn len) [53, 54, 55, 56, 57, 58] dn.toNat := by
  have hbits : ∀ k < 6, ∃ p ∈ List.range 6,
      53 + p = [53, 54, 55, 56, 57, 58].getD k 0 ∧ 5 - p = 5 - k := by
    decide
  exact pmCarries_of_mem hx (by decide) fun k hk =>
    mem_regularWrites.2
      (.inr (.inr (.inr (.inr (.inr (.inr (.inl (mem_bitWrites _ (hbits k hk)))))))))

/-- R170: a position beyond 58 is `ZERO` where the minute has it. -/
theorem pmCell_tail_zero (hx : extendedMinute tv.minute.toNat = false) {i : Nat} (hi : i < 61)
    (h : (i, PmSym.zero) ∈ tailWrites len) : pmCell (pmEncode tv dn len) i = .zero :=
  pmCell_regular hi hx
    (mem_regularWrites.2 (.inr (.inr (.inr (.inr (.inr (.inr (.inr h))))))))

/-- R170: the positions beyond 58, by the length of the minute. -/
theorem pmCell_tail (hx : extendedMinute tv.minute.toNat = false) :
    pmCell (pmEncode tv dn (lengthOf tv)) 59 = (if 60 ≤ lengthOf tv then .zero else .unset) ∧
    pmCell (pmEncode tv dn (lengthOf tv)) 60 = (if lengthOf tv = 61 then .zero else .unset) := by
  refine ⟨?_, ?_⟩
  · split
    next h => exact pmCell_tail_zero hx (by decide) (by simp [tailWrites, h])
    next h => exact pmCell_pmEncode_of_le tv dn (by decide) (by omega)
  · split
    next h => exact pmCell_tail_zero hx (by decide) (by simp [tailWrites, h])
    next h =>
      refine pmCell_pmEncode_of_le tv dn (by decide) ?_
      rcases lengthOf_cases tv with h' | h' | h' <;> omega

end

/-! ### The DST/leap code -/

/-- R126, as the statements write it, for either value of the parameter. -/
theorem leapSecCode_eq (whenNonneg : Bool) (tv : TimeValue) :
    leapSecCode whenNonneg tv =
      if tv.ls = true then (if insertionWhen whenNonneg tv then 2 else 3) else 0 := by
  simp only [insertionWhen_iff, leapSecCode]
  cases tv.ls <;> rfl

/-- R166: the DST code stands below the leap-second code, so the table is read at their sum. -/
theorem dstLsCode_eq (tv : TimeValue) :
    dstLsCode tv =
      dstLsLut.getD (tv.dst.toNat +
        4 * (if tv.ls = true then (if insertion tv then 2 else 3) else 0)) 0 := by
  rw [dstLsCode, Nat.or_comm, ← Nat.shiftLeft_add_eq_or_of_lt tv.dst.isLt, Nat.shiftLeft_eq,
    leapSecCode_eq, Nat.add_comm, Nat.mul_comm]

/-! ### The command -/

/-- Settles O40: each field of the minute is where its rule puts it, and the leap-second code is as
R126 says. -/
theorem encPmWritesTheRegularMinute : Obligations.EncPmWritesTheRegularMinute := by
  refine ⟨fun s hlegal hregular => ?_, leapSecCode_eq⟩
  have hx := (extendedMinute_eq_false_iff _).2 hregular
  obtain ⟨hzero, hone⟩ := pmCell_reserved (dn := s.dstNext) (len := lengthOf s.tv) hx
  obtain ⟨h59, h60⟩ := pmCell_tail (dn := s.dstNext) hx
  have hdst := pmCarries_dstLs (dn := s.dstNext) (len := lengthOf s.tv) hx
  rw [dstLsCode_eq] at hdst
  exact ⟨_, checked_complete_of_legal ((validTv_iff s.tv).2 hlegal) _ _ _ _, rfl,
    tcLen_lengthOf s.tv, fun i _ => amCell_clearAm i, pmCarries_sync hx, pmCarries_parity hx,
    pmCarries_moc hx, pmCell_moc_repeat hx, hzero, hone, hdst, pmCell_notice hx,
    pmCarries_dstNext hx, h59, h60⟩

end Sys2Proof.Machine
end

section
/-! Family 41_am_encoder.md: what `ENC_AM` puts into the AM channel. -/

namespace Sys2Proof.Machine

/-! ### The channel of a time value -/

/-- R141 to R151: the AM cells below 59, which every minute of a time value has, whatever its
length. -/
structure CarriesValue (am : AmBuf) (tv : TimeValue) : Prop where
  marks : ∀ i ∈ amMarksInside, amCell am i = .mark
  zeros : ∀ i ∈ amZeros, amCell am i = .zero
  minute : fieldCarries am minutePositions tv.minute.toNat
  hour : fieldCarries am hourPositions tv.hour.toNat
  days : fieldCarries am daysPositions tv.days.toNat
  sign36 : amCell am 36 = if 0 ≤ tv.ut1.toInt then .one else .zero
  sign37 : amCell am 37 = if 0 ≤ tv.ut1.toInt then .zero else .one
  sign38 : amCell am 38 = if 0 ≤ tv.ut1.toInt then .one else .zero
  magnitude : fieldCarries am ut1Positions (tv.ut1.toInt.natAbs / 100)
  year : fieldCarries am yearPositions (tv.year.toNat % 100)
  leapYear : amCell am 55 = if tv.ly = true then .one else .zero
  leapSecond : amCell am 56 = if tv.ls = true then .one else .zero
  dst : fieldCarries am dstPositions tv.dst.toNat

/-- The positions of a field, most significant first, from the other end (R102). -/
theorem getD_reverse {positions : List Nat} {k : Nat} (hk : k < positions.length) :
    positions.reverse.getD k 0 = positions.getD (positions.length - 1 - k) 0 := by
  rw [List.getD_eq_getElem _ _ (by simpa using hk), List.getElem_reverse,
    List.getD_eq_getElem _ _ (by omega)]

/-- A field's cells stand at its positions. -/
theorem getD_mem_positions {positions : List Nat} {k : Nat} (hk : k < positions.length) :
    positions.getD (positions.length - 1 - k) 0 ∈ positions := by
  rw [List.getD_eq_getElem _ _ (by omega)]
  exact List.getElem_mem _

/-- A field that `am_encode` writes carries its value (R102). -/
theorem fieldCarries_amEncode {tv : TimeValue} {len v : Nat} {positions : List Nat}
    (hpos : ∀ i ∈ positions, i < 61)
    (hmem : ∀ w ∈ fieldWrites positions v, w ∈ amWrites tv len) :
    fieldCarries (amEncode tv len) positions v := by
  intro k hk
  rw [amCell_amEncode (hpos _ (getD_mem_positions hk)) (hmem _ (fieldWrites_mem positions v k hk)),
    bcdPack_testBit, decide_eq_true hk, Bool.true_and]
  rfl

/-- R101: a field of two digits drops the digits above the tens. -/
theorem fieldCarries_mod_hundred {am : AmBuf} {positions : List Nat} {v : Nat}
    (h : fieldCarries am positions v) (hlen : positions.length ≤ 8) :
    fieldCarries am positions (v % 100) := by
  intro k hk
  have hdigit : v % 100 / 10 ^ (k / 4) % 10 = v / 10 ^ (k / 4) % 10 := by
    obtain hj | hj : k / 4 = 0 ∨ k / 4 = 1 := by omega
    · rw [hj]
      omega
    · rw [hj]
      omega
  rw [hdigit]
  exact h k hk

/-- R9: the symbol of the opposite bit, as the statements write it. -/
theorem amSymOfBit_not (p : Prop) [Decidable p] :
    amSymOfBit (!decide p) = if p then .zero else .one := by
  by_cases h : p
  · simp [amSymOfBit, h]
  · simp [amSymOfBit, h]

/-- R153: the encoder places every field, mark and flag below position 59. -/
theorem carriesValue_amEncode (tv : TimeValue) (len : Nat) :
    CarriesValue (amEncode tv len) tv where
  marks i hi := by
    have hlt : ∀ i ∈ amMarksInside, i < 61 := by decide
    refine amCell_amEncode (hlt i hi) (mem_amWrites.2 (.inl ?_))
    simp [markWrites, hi]
  zeros i hi := by
    have hlt : ∀ i ∈ amZeros, i < 61 := by decide
    exact amCell_amEncode (hlt i hi) (mem_amWrites.2 (.inr (.inl (List.mem_map_of_mem hi))))
  minute := fieldCarries_amEncode (by decide) fun _ h => by simp [mem_amWrites, h]
  hour := fieldCarries_amEncode (by decide) fun _ h => by simp [mem_amWrites, h]
  days := fieldCarries_amEncode (by decide) fun _ h => by simp [mem_amWrites, h]
  sign36 := amCell_amEncode (by decide) (by simp [mem_amWrites, signWrites, amSymOfBit])
  sign37 := by
    rw [← amSymOfBit_not]
    exact amCell_amEncode (by decide) (by simp [mem_amWrites, signWrites])
  sign38 := amCell_amEncode (by decide) (by simp [mem_amWrites, signWrites, amSymOfBit])
  magnitude := fieldCarries_amEncode (by decide) fun _ h => by simp [mem_amWrites, h]
  year := fieldCarries_mod_hundred
    (fieldCarries_amEncode (by decide) fun _ h => by simp [mem_amWrites, h]) (by decide)
  leapYear := amCell_amEncode (by decide) (by simp [mem_amWrites, amSymOfBit])
  leapSecond := amCell_amEncode (by decide) (by simp [mem_amWrites, amSymOfBit])
  dst := fieldCarries_amEncode (by decide) fun _ h => by simp [mem_amWrites, h]

/-- R141, R153: a cell no assignment writes is `UNSET`. -/
theorem amCell_amEncode_unset {tv : TimeValue} {len i : Nat} (hi : i < 61)
    (hm : i ∉ (amWrites tv len).map Prod.fst) : amCell (amEncode tv len) i = .unset := by
  rw [amEncode, amCell_of_not_mem hi hm, amCell_clearAm]

/-- R141: the mark of second 59, where the minute has it. -/
theorem amCell_amEncode_59 (tv : TimeValue) (len : Nat) :
    amCell (amEncode tv len) 59 = if 60 ≤ len then .mark else .unset := by
  split
  next h => exact amCell_amEncode (by decide) (mem_amWrites.2 (.inl (by simp [markWrites, h])))
  next h =>
    refine amCell_amEncode_unset (by decide) ?_
    rw [amWrites_fst, if_neg h, if_neg (by omega)]
    decide

/-- R141: the mark of second 60, where the minute has it. -/
theorem amCell_amEncode_60 (tv : TimeValue) (len : Nat) :
    amCell (amEncode tv len) 60 = if len = 61 then .mark else .unset := by
  split
  next h => exact amCell_amEncode (by decide) (mem_amWrites.2 (.inl (by simp [markWrites, h])))
  next h =>
    refine amCell_amEncode_unset (by decide) ?_
    rw [amWrites_fst, if_neg h]
    split
    · decide
    · decide

/-! ### The command -/

/-- R140: `ENC_AM` on a legal time value, as a record. -/
theorem exec_encAm_of_legal {s : State} (h : legalTv s.tv) :
    exec .encAm s = .next { s with
      am := amEncode s.tv (lengthOf s.tv)
      pm := clearPm
      tcLen := BitVec.ofNat 8 (lengthOf s.tv)
      status := succeeded s.status false false } := by
  simp only [exec, execEncAm]
  rw [checked_complete_of_legal ((validTv_iff s.tv).2 h)]

/-- Settles O39: the check is the case split; the cells are those `am_encode` writes, and the two
beyond 58 go by the length. -/
theorem encAmWritesEveryCell : Obligations.EncAmWritesEveryCell := by
  refine fun s => ⟨fun hlegal => ?_,
    fun hillegal => checked_of_not_legal (mt (validTv_iff s.tv).1 hillegal) _ _⟩
  have hc := carriesValue_amEncode s.tv (lengthOf s.tv)
  refine ⟨_, exec_encAm_of_legal hlegal, ?_⟩
  dsimp only
  exact ⟨rfl, tcLen_lengthOf s.tv, fun i _ => pmCell_clearPm i,
    hc.marks, amCell_amEncode_59 _ _, amCell_amEncode_60 _ _, hc.zeros, hc.minute, hc.hour,
    hc.days, hc.sign36, hc.sign37, hc.sign38, hc.magnitude, hc.year, hc.leapYear, hc.leapSecond,
    hc.dst⟩

end Sys2Proof.Machine
end

section
/-! Family 41_am_encoder.md: an encoded minute decodes back. -/

namespace Sys2Proof.Machine

/-! ### Reading the fields -/

/-- A carried field's cells are binary. -/
theorem fieldCarries_binary {am : AmBuf} {positions : List Nat} {v : Nat}
    (h : fieldCarries am positions v) {i : Nat} (hi : i ∈ positions) :
    amCell am i = .zero ∨ amCell am i = .one := by
  obtain ⟨j, hj, rfl⟩ := List.mem_iff_getElem.1 hi
  have hcell := h (positions.length - 1 - j) (by omega)
  rw [show positions.length - 1 - (positions.length - 1 - j) = j by omega,
    List.getD_eq_getElem _ _ hj] at hcell
  rw [hcell]
  split
  · exact .inr rfl
  · exact .inl rfl

/-- The cells of a carried field are the bits of the packed value (R100, R104). -/
theorem bitsToNat_of_fieldCarries {am : AmBuf} {positions : List Nat} {v : Nat}
    (h : fieldCarries am positions v) :
    bitsToNat (fun k => amCell am (positions.reverse.getD k 0) == .one) positions.length
      = bcdPack v positions.length := by
  apply Nat.eq_of_testBit_eq
  intro k
  rw [testBit_bitsToNat, bcdPack_testBit]
  by_cases hk : k < positions.length
  · rw [getD_reverse hk, h k hk]
    cases (v / 10 ^ (k / 4) % 10).testBit (k % 4) <;> rfl
  · simp [hk]

/-- A carried field reads back as its value, where its digits fit (R103, R104). -/
theorem getField_of_fieldCarries {am : AmBuf} {positions : List Nat} {v : Nat}
    (h : fieldCarries am positions v)
    (hv : v < 2 ^ (positions.length % 4) * 10 ^ (positions.length / 4)) :
    getField am positions = .value v := by
  have hbinary : ∀ p ∈ positions, amCell am p = .zero ∨ amCell am p = .one :=
    fun _ => fieldCarries_binary h
  rw [getField, if_pos (by simpa using hbinary), bitsToNat_of_fieldCarries h,
    bcdUnpack_bcdPack hv]

/-! ### The value that comes back -/

/-- R202: what a time value is after the round trip: UT1 truncated toward zero to tenths, and the
year brought into the epoch window. -/
def roundTrip (tv : TimeValue) : TimeValue :=
  { tv with
    year := BitVec.ofNat 14 (fullYear Config.epoch (tv.year.toNat % 100))
    ut1 := BitVec.ofInt 16 (tv.ut1.toInt.tdiv 100 * 100) }

/-- R147, R198: the magnitude digit and the sign give UT1 truncated toward zero. -/
theorem decodedUt1_eq (ut1 : Int) {sign : AmSym} (h : sign = if 0 ≤ ut1 then .one else .zero) :
    decodedUt1 (ut1.natAbs / 100) sign = ut1.tdiv 100 * 100 := by
  subst h
  by_cases hs : 0 ≤ ut1
  · obtain ⟨n, rfl⟩ := Int.eq_ofNat_of_zero_le hs
    rw [if_pos hs]
    rfl
  · obtain ⟨n, hn⟩ := Int.eq_ofNat_of_zero_le (show 0 ≤ -ut1 by omega)
    obtain rfl : ut1 = -(n : Int) := by omega
    rw [if_neg hs, Int.neg_tdiv, Int.natAbs_neg, Int.neg_mul]
    rfl

/-- A flag cell reads as its flag (R149, R150). -/
theorem flag_of_cell {c : AmSym} {b : Bool} (h : c = if b = true then .one else .zero) :
    (c == .one) = b := by
  subst h
  cases b <;> rfl

/-- R198, R199: the fields of a time value's cells make up what comes back. -/
theorem decodedValue_of_carries {am : AmBuf} {tv : TimeValue} (h : CarriesValue am tv) :
    decodedValue am tv.minute.toNat tv.hour.toNat tv.days.toNat (tv.ut1.toInt.natAbs / 100)
      (tv.year.toNat % 100) tv.dst.toNat = roundTrip tv := by
  simp only [decodedValue, roundTrip, BitVec.ofNat_toNat, BitVec.setWidth_eq,
    decodedUt1_eq _ h.sign38, flag_of_cell h.leapSecond, flag_of_cell h.leapYear]

/-- R196, R197: the fields of a legal time value's cells are read back, and are in range. -/
theorem decodeCells_of_carries {am : AmBuf} {tv : TimeValue} (hlegal : legalTv tv)
    (h : CarriesValue am tv) : decodeCells am = some (roundTrip tv) := by
  obtain ⟨-, -, hfirst, hdays, hhour, hminute, hlow, hhigh⟩ := hlegal
  have h366 := days_le_366 hdays
  have hdst := tv.dst.isLt
  have hranges : rangesHold tv.minute.toNat tv.hour.toNat tv.days.toNat (amCell am 55 == .one)
      = true := by
    rw [flag_of_cell h.leapYear]
    exact rangesHold_iff.2 ⟨by omega, by omega, hfirst, hdays⟩
  rw [decodeCells,
    getField_of_fieldCarries h.minute (show _ < 2 ^ 3 * 10 ^ 1 by omega),
    getField_of_fieldCarries h.hour (show _ < 2 ^ 2 * 10 ^ 1 by omega),
    getField_of_fieldCarries h.days (show _ < 2 ^ 2 * 10 ^ 2 by omega),
    getField_of_fieldCarries h.magnitude (show _ < 2 ^ 0 * 10 ^ 1 by omega),
    getField_of_fieldCarries h.year (show _ < 2 ^ 0 * 10 ^ 2 by omega),
    getField_of_fieldCarries h.dst (show _ < 2 ^ 2 * 10 ^ 0 by omega)]
  simp only [hranges, if_true, decodedValue_of_carries h]

/-! ### The checks of the decoder -/

/-- R192: the marks of a time value's cells hold exactly when second 59 has its mark. -/
theorem marksHold_of_carries {am : AmBuf} {tv : TimeValue} (h : CarriesValue am tv) :
    marksHold am = (amCell am 59 == .mark) := by
  have hsplit : marksHold am = ((amMarksInside.all fun i => amCell am i == .mark)
      && (amCell am 59 == .mark)) := by
    simp only [marksHold, amMarks, amMarksInside, List.all_cons, List.all_nil, Bool.and_assoc,
      Bool.and_true]
  rw [hsplit, List.all_eq_true.2 fun i hi => beq_iff_eq.2 (h.marks i hi), Bool.true_and]

/-- R193. -/
theorem zerosHold_of_carries {am : AmBuf} {tv : TimeValue} (h : CarriesValue am tv) :
    zerosHold am = true :=
  List.all_eq_true.2 fun i hi => beq_iff_eq.2 (h.zeros i hi)

/-- R194. -/
theorem flagsBinary_of_carries {am : AmBuf} {tv : TimeValue} (h : CarriesValue am tv) :
    flagsBinary am = true := by
  simp only [flagsBinary, flagPositions, List.all_cons, List.all_nil, h.sign36, h.sign37, h.sign38,
    h.leapYear, h.leapSecond]
  by_cases hs : 0 ≤ tv.ut1.toInt
  · simp only [hs, if_true]
    cases tv.ly <;> cases tv.ls <;> rfl
  · simp only [hs, if_false]
    cases tv.ly <;> cases tv.ls <;> rfl

/-- R195. -/
theorem signHolds_of_carries {am : AmBuf} {tv : TimeValue} (h : CarriesValue am tv) :
    signHolds am = true := by
  simp only [signHolds, h.sign36, h.sign37, h.sign38]
  by_cases hs : 0 ≤ tv.ut1.toInt
  · simp only [hs, if_true]
    rfl
  · simp only [hs, if_false]
    rfl

/-- R201, R202: a legal time value's cells decode to what comes back of it, if second 59 has its
mark. -/
theorem decAm_of_carries {am : AmBuf} {tv : TimeValue} (hlegal : legalTv tv)
    (h : CarriesValue am tv) :
    decAm am = if amCell am 59 = .mark then some (roundTrip tv) else none := by
  rw [decAm, marksHold_of_carries h, zerosHold_of_carries h, flagsBinary_of_carries h,
    signHolds_of_carries h, decodeCells_of_carries hlegal h]
  simp only [Bool.and_true, beq_iff_eq]

/-! ### When nothing is lost -/

/-- R128: the epoch window is the hundred years in which two digits give the year back. -/
theorem fullYear_mod_hundred_eq_iff (y : Nat) :
    fullYear Config.epoch (y % 100) = y ↔ 1970 ≤ y ∧ y ≤ 2069 := by
  simp only [fullYear, Config.epoch]
  split
  · omega
  · split
    · omega
    · omega

/-- R147: truncation to tenths loses nothing exactly of whole tenths. -/
theorem tdiv_mul_hundred_eq_iff (x : Int) : x.tdiv 100 * 100 = x ↔ x % 100 = 0 := by
  rw [← Int.dvd_iff_emod_eq_zero, Int.dvd_iff_tmod_eq_zero, Int.tmod_def, Int.mul_comm 100]
  omega

/-- A time value is what comes back of it exactly if the two corrected fields are. -/
theorem roundTrip_eq_iff_fields (tv : TimeValue) :
    roundTrip tv = tv ↔
      BitVec.ofNat 14 (fullYear Config.epoch (tv.year.toNat % 100)) = tv.year ∧
        BitVec.ofInt 16 (tv.ut1.toInt.tdiv 100 * 100) = tv.ut1 := by
  refine ⟨fun h => ⟨congrArg TimeValue.year h, congrArg TimeValue.ut1 h⟩, fun ⟨hyear, hut1⟩ => ?_⟩
  rw [roundTrip, hyear, hut1]

/-- R202: the round trip is the identity exactly where neither correction applies. -/
theorem roundTrip_eq_iff {tv : TimeValue} (hlegal : legalTv tv) :
    roundTrip tv = tv ↔
      tv.ut1.toInt % 100 = 0 ∧ 1970 ≤ tv.year.toNat ∧ tv.year.toNat ≤ 2069 := by
  obtain ⟨-, -, -, -, -, -, hlow, hhigh⟩ := hlegal
  obtain ⟨-, hfull⟩ := fullYear_epoch_bounds (Nat.mod_lt tv.year.toNat (by decide : 0 < 100))
  have hyear : BitVec.ofNat 14 (fullYear Config.epoch (tv.year.toNat % 100)) = tv.year ↔
      1970 ≤ tv.year.toNat ∧ tv.year.toNat ≤ 2069 := by
    rw [← fullYear_mod_hundred_eq_iff, ← BitVec.toNat_inj, BitVec.toNat_ofNat,
      Nat.mod_eq_of_lt (by omega)]
  have hut1 : BitVec.ofInt 16 (tv.ut1.toInt.tdiv 100 * 100) = tv.ut1 ↔
      tv.ut1.toInt % 100 = 0 := by
    obtain ⟨hge, hle⟩ := decodedUt1_bounds (if 0 ≤ tv.ut1.toInt then .one else .zero)
      (show tv.ut1.toInt.natAbs / 100 < 10 by omega)
    rw [decodedUt1_eq _ rfl] at hge hle
    rw [← tdiv_mul_hundred_eq_iff, ← BitVec.toInt_inj, BitVec.toInt_ofInt,
      Int.bmod_eq_of_le (by omega) (by omega)]
  rw [roundTrip_eq_iff_fields, hyear, hut1, and_comm]

/-! ### The commands -/

/-- R200: `DEC_AM` on a minute that decodes. -/
theorem exec_decAm_of_some {s : State} {tv : TimeValue} (h : decAm s.am = some tv) :
    exec .decAm s = .next { s with tvo := tv, status := succeeded s.status true false } := by
  simp only [exec, execDecAm, h, complete_eq]

/-- R200, R244: `DEC_AM` on a minute that does not decode. -/
theorem exec_decAm_of_none {s : State} (h : decAm s.am = none) :
    exec .decAm s = .next { s with status := succeeded s.status false false } := by
  simp only [exec, execDecAm, h, complete_eq]

/-- R202: an encoded minute of at least 60 seconds decodes to what comes back of its time value. -/
theorem decAm_amEncode {tv : TimeValue} (hlegal : legalTv tv) (hlen : 60 ≤ lengthOf tv) :
    decAm (amEncode tv (lengthOf tv)) = some (roundTrip tv) := by
  rw [decAm_of_carries hlegal (carriesValue_amEncode tv _), amCell_amEncode_59, if_pos hlen,
    if_pos rfl]

/-- R202: a minute of 59 seconds has no mark at 59 and does not decode. -/
theorem decAm_amEncode_short {tv : TimeValue} (hlegal : legalTv tv) (hlen : lengthOf tv = 59) :
    decAm (amEncode tv (lengthOf tv)) = none := by
  rw [decAm_of_carries hlegal (carriesValue_amEncode tv _), amCell_amEncode_59,
    if_neg (show ¬60 ≤ lengthOf tv by omega), if_neg (by decide)]

/-- Settles O46: `DEC_AM` sees the cells `ENC_AM` wrote, and the length decides whether second 59
has the mark it needs. -/
theorem encodedMinuteDecodesBack : Obligations.EncodedMinuteDecodesBack := by
  intro s hlegal
  refine ⟨_, exec_encAm_of_legal hlegal, fun hlen => ?_, fun hlen => ?_⟩
  · refine ⟨_, exec_decAm_of_some (tv := roundTrip s.tv) ?_, rfl, rfl, roundTrip_eq_iff hlegal⟩
    dsimp only
    exact decAm_amEncode hlegal hlen
  · refine ⟨_, exec_decAm_of_none ?_, rfl, rfl⟩
    dsimp only
    exact decAm_amEncode_short hlegal hlen

end Sys2Proof.Machine
end

section
/-! Family 41_am_encoder.md: an encoded minute is a skeleton, which the receiver locks on to from
every state and emits as it was sent. -/

namespace Sys2Proof.Machine

/-! ### One symbol -/

/-- What `RX_FEED` leaves in the receiver, in `STATUS` and, where it emits, in the channel (R212,
R219). -/
theorem exec_rxFeed_next {v : AmSym} (hu : v ≠ .unset) (s : State) :
    ∃ t, exec (.rxFeed v) s = .next t ∧
      t.rxState = (rxStep s.rxState s.rxAcc v).state ∧
      t.rxAcc = (rxStep s.rxState s.rxAcc v).acc ∧
      t.status.emit = (rxStep s.rxState s.rxAcc v).emitted.isSome ∧
      ∀ minute, (rxStep s.rxState s.rxAcc v).emitted = some minute →
        t.am = emittedAm minute ∧ t.tcLen = 60 := by
  refine ⟨_, exec_rxFeed hu s, ?_⟩
  cases he : (rxStep s.rxState s.rxAcc v).emitted with
  | none =>
    rw [applyRx_of_emitted_none he]
    exact ⟨rfl, rfl, rfl, nofun⟩
  | some minute =>
    rw [applyRx_of_emitted_some he]
    refine ⟨rfl, rfl, rfl, fun m hm => ?_⟩
    cases hm
    exact ⟨rfl, rfl⟩

/-- A skeleton has no `UNSET` (R211). -/
theorem ne_unset_of_skeletonAdmits {i : Nat} {v : AmSym} (h : skeletonAdmits i v) :
    v ≠ .unset := by
  unfold skeletonAdmits at h
  split at h
  · rw [h]
    decide
  · split at h
    · rw [h]
      decide
    · rcases h with h | h <;> rw [h] <;> decide

/-- R216: inside a minute an admitted symbol before position 59 is appended. -/
theorem rxInMinute_of_admitted {acc : List AmSym} {v : AmSym} (hv : skeletonAdmits acc.length v)
    (h59 : acc.length ≠ 59) :
    rxInMinute acc v = { state := .inMinute, acc := acc ++ [v], emitted := none } := by
  obtain ⟨e, -, -⟩ | ⟨-, -, h⟩ | ⟨_, -, -, h⟩ :=
    rxInMinute_cases acc v (ne_unset_of_skeletonAdmits hv)
  · exact e
  · exact absurd h h59
  · exact absurd hv h

/-- R219: an admitted symbol at position 59 completes the minute. -/
theorem rxInMinute_of_last {acc : List AmSym} {v : AmSym} (hv : skeletonAdmits acc.length v)
    (h59 : acc.length = 59) :
    rxInMinute acc v = { state := .oneMark, acc := [], emitted := some (acc ++ [v]) } := by
  obtain ⟨-, -, h⟩ | ⟨e, -, -⟩ | ⟨_, -, -, h⟩ :=
    rxInMinute_cases acc v (ne_unset_of_skeletonAdmits hv)
  · exact absurd h59 h
  · exact e
  · exact absurd hv h

/-- Feeding one symbol more. -/
theorem feedAll_snoc {first : List AmSym} {v : AmSym} {s t u : State}
    (h : feedAll first s = .next t) (hv : exec (.rxFeed v) t = .next u) :
    feedAll (first ++ [v]) s = .next u := by
  rw [feedAll_append h, feedAll_singleton, hv]

/-! ### Locking on -/

/-- No two mark positions stand side by side, so a second mark in a row is out of place (R217). -/
theorem succ_not_mem_amMarks {i : Nat} (h : i ∈ amMarks) : i + 1 ∉ amMarks := by
  revert i
  decide

/-- A mark leads to state 2 or 3, or is taken for a mark of the minute under way (R213 to R217). -/
theorem rxStep_mark_cases (st : RxState) (acc : List AmSym) :
    (rxStep st acc .mark).state = .oneMark ∨ (rxStep st acc .mark).state = .twoMarks ∨
      ((rxStep st acc .mark).state = .inMinute ∧
        (rxStep st acc .mark).acc = acc ++ [AmSym.mark] ∧ acc.length ∈ amMarks) := by
  cases st with
  | unsynced => exact .inl rfl
  | oneMark => exact .inr (.inl rfl)
  | twoMarks => exact .inr (.inl rfl)
  | inMinute =>
    simp only [rxStep, rxInMinute_eq, iff_true]
    by_cases hm : acc.length ∈ amMarks
    · rw [if_neg (not_not.2 hm), if_neg fun h => not_mem_amMarks_of_mem_amZeros h.1 hm]
      split
      · exact .inl rfl
      · exact .inr (.inr ⟨rfl, rfl, hm⟩)
    · rw [if_pos hm, rxResync, if_pos rfl]
      split
      · exact .inr (.inl rfl)
      · exact .inl rfl

/-- A mark that follows two marks, or one, or the mark of a minute under way, leads to state 3
(R214, R215, R217). -/
theorem rxStep_second_mark {st : RxState} {acc : List AmSym}
    (h : st = .oneMark ∨ st = .twoMarks ∨
      (st = .inMinute ∧ ∃ before, acc = before ++ [AmSym.mark] ∧ before.length ∈ amMarks)) :
    (rxStep st acc .mark).state = .twoMarks ∧ (rxStep st acc .mark).emitted = none := by
  obtain rfl | rfl | ⟨rfl, before, rfl, hm⟩ := h
  · exact ⟨rfl, rfl⟩
  · exact ⟨rfl, rfl⟩
  · have hout : (before ++ [AmSym.mark]).length ∉ amMarks := by
      simpa using succ_not_mem_amMarks hm
    simp only [rxStep, rxInMinute_eq]
    rw [if_pos (by simpa using hout)]
    simp [rxResync, rxGo]

/-- R223: from every state two marks lead to state 3, and the second emits nothing. -/
theorem feedAll_two_marks (s : State) :
    ∃ t, feedAll [.mark, .mark] s = .next t ∧ t.rxState = .twoMarks ∧ t.status.emit = false := by
  obtain ⟨t, ht, htState, htAcc, -, -⟩ := exec_rxFeed_next (v := .mark) (by decide) s
  obtain ⟨u, hu, huState, -, huEmit, -⟩ := exec_rxFeed_next (v := .mark) (by decide) t
  have hfirst : t.rxState = .oneMark ∨ t.rxState = .twoMarks ∨
      (t.rxState = .inMinute ∧
        ∃ before, t.rxAcc = before ++ [AmSym.mark] ∧ before.length ∈ amMarks) := by
    rw [htState, htAcc]
    obtain h | h | ⟨h, hacc, hm⟩ := rxStep_mark_cases s.rxState s.rxAcc
    · exact .inl h
    · exact .inr (.inl h)
    · exact .inr (.inr ⟨h, _, hacc, hm⟩)
  obtain ⟨hstate, hemit⟩ := rxStep_second_mark hfirst
  have hfeed : feedAll [.mark] s = .next t := (feedAll_singleton _ _).trans ht
  have hboth := feedAll_snoc hfeed hu
  exact ⟨u, hboth, huState.trans hstate, by rw [huEmit, hemit, Option.isSome_none]⟩

/-! ### Receiving a minute -/

/-- The receiver is inside a minute that began with `acc`, and the last command emitted nothing. -/
structure Receiving (acc : List AmSym) (s : State) : Prop where
  state : s.rxState = .inMinute
  symbols : s.rxAcc = acc
  quiet : s.status.emit = false

/-- R215: the symbol after two marks starts a minute. -/
theorem exec_rxFeed_start {v : AmSym} (hv : skeletonAdmits 1 v) {s : State}
    (hs : s.rxState = .twoMarks) :
    ∃ t, exec (.rxFeed v) s = .next t ∧ Receiving [.mark, v] t := by
  obtain ⟨-, -, hbit⟩ := (skeletonAdmits_iff 1 v).1 hv
  have hdata : v = .zero ∨ v = .one := hbit (by decide) (by decide)
  have hmark : v ≠ .mark := by rcases hdata with rfl | rfl <;> decide
  obtain ⟨t, ht, hstate, hacc, hemit, -⟩ := exec_rxFeed_next (ne_unset_of_skeletonAdmits hv) s
  rw [hs, rxStep, if_neg hmark] at hstate hacc hemit
  exact ⟨t, ht, hstate, hacc, hemit⟩

/-- R216: inside a minute an admitted symbol is taken in. -/
theorem exec_rxFeed_receiving {acc : List AmSym} {v : AmSym} (hv : skeletonAdmits acc.length v)
    (h59 : acc.length ≠ 59) {s : State} (hs : Receiving acc s) :
    ∃ t, exec (.rxFeed v) s = .next t ∧ Receiving (acc ++ [v]) t := by
  obtain ⟨t, ht, hstate, hacc, hemit, -⟩ := exec_rxFeed_next (ne_unset_of_skeletonAdmits hv) s
  rw [hs.state, hs.symbols, rxStep, rxInMinute_of_admitted hv h59] at hstate hacc hemit
  exact ⟨t, ht, hstate, hacc, hemit⟩

/-- R219: the last symbol of a skeleton emits the minute. -/
theorem exec_rxFeed_last {acc : List AmSym} {v : AmSym} (hv : skeletonAdmits acc.length v)
    (h59 : acc.length = 59) {s : State} (hs : Receiving acc s) :
    ∃ t, exec (.rxFeed v) s = .next t ∧ t.status.emit = true ∧ t.rxState = .oneMark ∧
      t.rxAcc = [] ∧ t.am = emittedAm (acc ++ [v]) ∧ t.tcLen = 60 := by
  obtain ⟨t, ht, hstate, hacc, hemit, hminute⟩ :=
    exec_rxFeed_next (ne_unset_of_skeletonAdmits hv) s
  rw [hs.state, hs.symbols, rxStep, rxInMinute_of_last hv h59] at hstate hacc hemit hminute
  obtain ⟨ham, hlen⟩ := hminute _ rfl
  exact ⟨t, ht, hemit, hstate, hacc, ham, hlen⟩

section
variable {minute : List AmSym} (hlen : minute.length = 60) (hs : skeletonHolds minute)
include hlen hs

/-- A skeleton begins with its mark and a data symbol. -/
theorem skeleton_take_two :
    ∃ v, minute.take 2 = [.mark, v] ∧ skeletonAdmits 1 v := by
  have hfirst : minute[0] = .mark := hs 0 (by omega)
  refine ⟨minute[1], ?_, hs 1 (by omega)⟩
  rw [List.take_succ_eq_append_getElem (by omega), List.take_succ_eq_append_getElem (by omega),
    hfirst]
  rfl

/-- R223: from every state a mark and the first symbols of a minute's skeleton leave the receiver
inside that minute, with nothing emitted. -/
theorem feedAll_mark_take (s : State) {k : Nat} (h2 : 2 ≤ k) (hk : k ≤ 59) :
    ∃ t, feedAll (.mark :: minute.take k) s = .next t ∧ Receiving (minute.take k) t := by
  induction k, h2 using Nat.le_induction with
  | base =>
    obtain ⟨v, htake, hv⟩ := skeleton_take_two hlen hs
    obtain ⟨u, hu, hstate, -⟩ := feedAll_two_marks s
    obtain ⟨t, ht, hreceiving⟩ := exec_rxFeed_start hv hstate
    rw [htake]
    have hthree := feedAll_snoc hu ht
    exact ⟨t, hthree, hreceiving⟩
  | succ k h2 ih =>
    obtain ⟨u, hu, hreceiving⟩ := ih (by omega)
    have hl : (minute.take k).length = k := by rw [List.length_take]; omega
    have hv : skeletonAdmits (minute.take k).length (minute[k]'(by omega)) := by
      rw [hl]
      exact hs k (by omega)
    obtain ⟨t, ht, hnext⟩ := exec_rxFeed_receiving hv (by omega) hreceiving
    rw [List.take_succ_eq_append_getElem (by omega)]
    exact ⟨t, feedAll_snoc hu ht, hnext⟩

/-- R223: from every state a mark and a minute with a valid skeleton emit that minute. -/
theorem feedAll_mark_minute (s : State) :
    ∃ t, feedAll (.mark :: minute) s = .next t ∧ t.status.emit = true ∧ t.rxState = .oneMark ∧
      t.rxAcc = [] ∧ t.am = emittedAm minute ∧ t.tcLen = 60 := by
  obtain ⟨u, hu, hreceiving⟩ := feedAll_mark_take hlen hs s (k := 59) (by decide) (by decide)
  have hl : (minute.take 59).length = 59 := by rw [List.length_take]; omega
  have hv : skeletonAdmits (minute.take 59).length (minute[59]'(by omega)) := by
    rw [hl]
    exact hs 59 (by omega)
  have hwhole : minute.take 59 ++ [minute[59]'(by omega)] = minute := by
    rw [← List.take_succ_eq_append_getElem, List.take_of_length_le (by omega)]
  obtain ⟨t, ht, hemit, hstate, hacc, ham, htc⟩ := exec_rxFeed_last hv hl hreceiving
  have hfeed := feedAll_snoc hu ht
  rw [List.cons_append, hwhole] at hfeed
  rw [hwhole] at ham
  exact ⟨t, hfeed, hemit, hstate, hacc, ham, htc⟩

end

/-! ### What the encoder sends -/

/-- A bit is admitted at a data position (R211). -/
theorem skeletonAdmits_bit {i : Nat} (hm : i ∉ amMarks) (hz : i ∉ amZeros) (b : Bool) :
    skeletonAdmits i (amSymOfBit b) := by
  refine (skeletonAdmits_iff i _).2 ⟨fun h => absurd h hm, fun _ h => absurd h hz, fun _ _ => ?_⟩
  cases b
  · exact .inl rfl
  · exact .inr rfl

/-- The sign and the two flags stand at data positions (R194). -/
theorem skeletonAdmits_flag {i : Nat} (hi : i ∈ flagPositions) (b : Bool) :
    skeletonAdmits i (amSymOfBit b) := by
  have hdata : ∀ i ∈ flagPositions, i ∉ amMarks ∧ i ∉ amZeros := by decide
  obtain ⟨hm, hz⟩ := hdata i hi
  exact skeletonAdmits_bit hm hz b

/-- A field at data positions is admitted (R211). -/
theorem skeletonAdmits_of_mem_fieldWrites {positions : List Nat} {v : Nat} {w : Nat × AmSym}
    (hpos : ∀ i ∈ positions, i ∉ amMarks ∧ i ∉ amZeros) (hw : w ∈ fieldWrites positions v) :
    skeletonAdmits w.1 w.2 := by
  have hfst : w.1 ∈ positions := by
    rw [← List.mem_reverse, ← fieldWrites_fst positions v]
    exact List.mem_map_of_mem hw
  obtain ⟨p, -, rfl⟩ := List.mem_map.1 hw
  obtain ⟨hm, hz⟩ := hpos _ hfst
  exact skeletonAdmits_bit hm hz _

/-- R141: the encoder's marks below position 60 are the skeleton's. -/
theorem mem_amMarks_of_mem_markWrites {len : Nat} {w : Nat × AmSym} (hw : w ∈ markWrites len)
    (h60 : w.1 < 60) : w.1 ∈ amMarks ∧ w.2 = .mark := by
  simp only [markWrites, List.mem_append] at hw
  obtain (hw | hw) | hw := hw
  · obtain ⟨i, hi, rfl⟩ := List.mem_map.1 hw
    exact ⟨List.mem_append_left [59] hi, rfl⟩
  · split at hw
    · rw [List.mem_singleton.1 hw]
      decide
    · cases hw
  · split at hw
    · rw [List.mem_singleton.1 hw] at h60
      exact absurd h60 (by decide)
    · cases hw

/-- R141 to R151: below position 60 the encoder writes only what the skeleton admits. -/
theorem skeletonAdmits_of_mem_amWrites {tv : TimeValue} {len : Nat} {w : Nat × AmSym}
    (hw : w ∈ amWrites tv len) (h60 : w.1 < 60) : skeletonAdmits w.1 w.2 := by
  obtain hmark | hzero | hminute | hhour | hdays | hsign | hut1 | hyear | hflag | hdst :=
    mem_amWrites.1 hw
  · obtain ⟨hm, hv⟩ := mem_amMarks_of_mem_markWrites hmark h60
    exact (skeletonAdmits_iff _ _).2
      ⟨fun _ => hv, fun h => absurd hm h, fun h => absurd hm h⟩
  · obtain ⟨i, hi, rfl⟩ := List.mem_map.1 hzero
    exact (skeletonAdmits_iff _ _).2 ⟨fun h => absurd h (not_mem_amMarks_of_mem_amZeros hi),
      fun _ _ => rfl, fun _ h => absurd hi h⟩
  · exact skeletonAdmits_of_mem_fieldWrites (by decide) hminute
  · exact skeletonAdmits_of_mem_fieldWrites (by decide) hhour
  · exact skeletonAdmits_of_mem_fieldWrites (by decide) hdays
  · simp only [signWrites, List.mem_cons, List.not_mem_nil, or_false] at hsign
    rcases hsign with rfl | rfl | rfl <;> exact skeletonAdmits_flag (by simp [flagPositions]) _
  · exact skeletonAdmits_of_mem_fieldWrites (by decide) hut1
  · exact skeletonAdmits_of_mem_fieldWrites (by decide) hyear
  · simp only [List.mem_cons, List.not_mem_nil, or_false] at hflag
    rcases hflag with rfl | rfl <;> exact skeletonAdmits_flag (by simp [flagPositions]) _
  · exact skeletonAdmits_of_mem_fieldWrites (by decide) hdst

/-- R152: a minute of at least 60 seconds has every cell below position 60 written. -/
theorem mem_amWrites_fst {tv : TimeValue} {len i : Nat} (hlen : 60 ≤ len) (hi : i < 60) :
    i ∈ (amWrites tv len).map Prod.fst := by
  rw [amWrites_fst, if_pos hlen]
  by_cases h : len = 61
  · rw [if_pos h]
    revert i
    decide
  · rw [if_neg h]
    revert i
    decide

theorem length_sentMinute (am : AmBuf) : (sentMinute am).length = 60 := by
  simp [sentMinute]

/-- R223: an encoded minute of at least 60 seconds is a skeleton the receiver accepts. -/
theorem skeletonHolds_sentMinute_amEncode (tv : TimeValue) {len : Nat} (hlen : 60 ≤ len) :
    skeletonHolds (sentMinute (amEncode tv len)) := by
  intro i hi
  rw [length_sentMinute] at hi
  obtain ⟨⟨_, v⟩, hw, rfl⟩ := List.mem_map.1 (mem_amWrites_fst (tv := tv) hlen hi)
  simp only [sentMinute, List.getElem_map, List.getElem_range]
  rw [amCell_amEncode (by omega) hw]
  exact skeletonAdmits_of_mem_amWrites hw hi

/-! ### The minute that arrives -/

/-- The receiver emits the cells it was sent (R219). -/
theorem amCell_emittedAm_sentMinute (am : AmBuf) {i : Nat} (hi : i < 60) :
    amCell (emittedAm (sentMinute am)) i = amCell am i := by
  rw [amCell_emittedAm, if_pos hi, List.getD_eq_getElem _ _ (by rwa [length_sentMinute])]
  simp [sentMinute]

/-- A field is carried over with its cells. -/
theorem fieldCarries_congr {a b : AmBuf} {positions : List Nat} {v : Nat}
    (h : ∀ i ∈ positions, amCell b i = amCell a i) (ha : fieldCarries a positions v) :
    fieldCarries b positions v := fun k hk => by
  rw [h _ (getD_mem_positions hk)]
  exact ha k hk

/-- Sending a minute keeps the value it carries: no field reaches beyond position 59. -/
theorem CarriesValue.of_sent {am : AmBuf} {tv : TimeValue} (h : CarriesValue am tv) :
    CarriesValue (emittedAm (sentMinute am)) tv := by
  have hcell : ∀ {i}, i < 60 → amCell (emittedAm (sentMinute am)) i = amCell am i :=
    amCell_emittedAm_sentMinute am
  have hfield : ∀ {positions v}, (∀ i ∈ positions, i < 60) → fieldCarries am positions v →
      fieldCarries (emittedAm (sentMinute am)) positions v :=
    fun hpos => fieldCarries_congr fun i hi => hcell (hpos i hi)
  have hmarks : ∀ i ∈ amMarksInside, i < 60 := by decide
  have hzeros : ∀ i ∈ amZeros, i < 60 := by decide
  exact {
    marks := fun i hi => (hcell (hmarks i hi)).trans (h.marks i hi)
    zeros := fun i hi => (hcell (hzeros i hi)).trans (h.zeros i hi)
    minute := hfield (by decide) h.minute
    hour := hfield (by decide) h.hour
    days := hfield (by decide) h.days
    sign36 := (hcell (by decide)).trans h.sign36
    sign37 := (hcell (by decide)).trans h.sign37
    sign38 := (hcell (by decide)).trans h.sign38
    magnitude := hfield (by decide) h.magnitude
    year := hfield (by decide) h.year
    leapYear := (hcell (by decide)).trans h.leapYear
    leapSecond := (hcell (by decide)).trans h.leapSecond
    dst := hfield (by decide) h.dst }

/-- R191, R202: a minute decodes after its transmission as it did before. -/
theorem decAm_sent_amEncode {tv : TimeValue} (hlegal : legalTv tv) (hlen : 60 ≤ lengthOf tv) :
    decAm (emittedAm (sentMinute (amEncode tv (lengthOf tv)))) = some (roundTrip tv) := by
  rw [decAm_of_carries hlegal (carriesValue_amEncode tv _).of_sent,
    amCell_emittedAm_sentMinute _ (by decide), amCell_amEncode_59, if_pos hlen, if_pos rfl]

/-- Settles O51: the receiver locks on to the encoded minute, emits it as it was sent, and the
decoder reads its fields. -/
theorem transmittedMinuteIsReceivedAndDecoded :
    Obligations.TransmittedMinuteIsReceivedAndDecoded := by
  intro s tv hlegal hlen
  obtain ⟨t, hfeed, hemit, -, -, ham, -⟩ := feedAll_mark_minute (length_sentMinute _)
    (skeletonHolds_sentMinute_amEncode tv hlen) s
  have hdec : decAm t.am = some (roundTrip tv) := by
    rw [ham]
    exact decAm_sent_amEncode hlegal hlen
  exact ⟨t, _, hfeed, hemit, exec_decAm_of_some hdec, rfl, rfl⟩

end Sys2Proof.Machine
end

section
/-! Family 42_pm_encoder.md: the seqno, the window of an extended minute, and both channels at
once. -/

namespace Sys2Proof.Machine

/-! ### The seqno -/

/-- R172: the half hour counts two. -/
theorem halfHour_eq {minute : Nat} (h : minute ≤ 59) :
    minute / 30 * 2 = if 30 ≤ minute then 2 else 0 := by
  split <;> omega

/-- R172: DST code 0. -/
theorem seqno_of_dst_zero {tv : TimeValue} (h : tv.dst = 0) :
    seqno tv = tv.minute.toNat / 30 * 2 := by
  simp [seqno, h]

/-- R172: DST code 3. -/
theorem seqno_of_dst_three {tv : TimeValue} (h : tv.dst = 3) :
    seqno tv = tv.minute.toNat / 30 * 2 + 1 := by
  simp [seqno, h]

/-- R172: DST code 2, with the boundaries of the table. -/
theorem seqno_of_dst_two {tv : TimeValue} (h : tv.dst = 2) :
    seqno tv = tv.minute.toNat / 30 * 2 +
      if tv.hour.toNat < 4 then 0 else if tv.hour.toNat < 11 then 90 else 1 := by
  simp [seqno, h]

/-- R172: DST code 1, with the boundaries of the table. -/
theorem seqno_of_dst_one {tv : TimeValue} (h : tv.dst = 1) :
    seqno tv = tv.minute.toNat / 30 * 2 +
      if tv.hour.toNat < 4 then 1 else if tv.hour.toNat < 11 then 91 else 0 := by
  simp [seqno, h]

/-- A table of the three bands of hours, read in each of them. -/
theorem hourBands (hour before between after : Nat) :
    let offset := if hour < 4 then before else if hour < 11 then between else after
    (hour < 4 → offset = before) ∧ (4 ≤ hour → hour < 11 → offset = between) ∧
      (11 ≤ hour → offset = after) := by
  refine ⟨fun hlow => if_pos hlow, fun hlow hhigh => ?_, fun hhigh => ?_⟩
  · rw [if_neg (Nat.not_lt.2 hlow), if_pos hhigh]
  · rw [if_neg (by omega), if_neg (Nat.not_lt.2 hhigh)]

/-- Settles O42: one row of the table for DST codes 0 and 3, and one for each band of hours for
codes 2 and 1. -/
theorem seqnoFollowsTheTable : Obligations.SeqnoFollowsTheTable := by
  intro tv hminute half
  have hhalf : tv.minute.toNat / 30 * 2 = half := halfHour_eq hminute
  obtain ⟨htwoLow, htwoMid, htwoHigh⟩ := hourBands tv.hour.toNat 0 90 1
  obtain ⟨honeLow, honeMid, honeHigh⟩ := hourBands tv.hour.toNat 1 91 0
  refine ⟨fun hd => ?_, fun hd => ?_,
    fun hd hlow => ?_, fun hd hlow hhigh => ?_, fun hd hhigh => ?_,
    fun hd hlow => ?_, fun hd hlow hhigh => ?_, fun hd hhigh => ?_⟩
  · rw [seqno_of_dst_zero hd, hhalf]
  · rw [seqno_of_dst_three hd, hhalf]
  · rw [seqno_of_dst_two hd, hhalf, htwoLow hlow, Nat.add_zero]
  · rw [seqno_of_dst_two hd, hhalf, htwoMid hlow hhigh]
  · rw [seqno_of_dst_two hd, hhalf, htwoHigh hhigh]
  · rw [seqno_of_dst_one hd, hhalf, honeLow hlow]
  · rw [seqno_of_dst_one hd, hhalf, honeMid hlow hhigh]
  · rw [seqno_of_dst_one hd, hhalf, honeHigh hhigh, Nat.add_zero]

/-! ### The commands -/

/-- R160: `ENC_PM` on a legal time value, as a record. -/
theorem exec_encPm_of_legal {s : State} (h : legalTv s.tv) :
    exec .encPm s = .next { s with
      am := clearAm
      pm := pmEncode s.tv s.dstNext (lengthOf s.tv)
      tcLen := BitVec.ofNat 8 (lengthOf s.tv)
      status := succeeded s.status false false } := by
  simp only [exec, execEncPm]
  rw [checked_complete_of_legal ((validTv_iff s.tv).2 h)]

/-- R177: `ENC_TC` on a legal time value, as a record. -/
theorem exec_encTc_of_legal {s : State} (h : legalTv s.tv) :
    exec .encTc s = .next { s with
      am := amEncode s.tv (lengthOf s.tv)
      pm := pmEncode s.tv s.dstNext (lengthOf s.tv)
      tcLen := BitVec.ofNat 8 (lengthOf s.tv)
      status := succeeded s.status false false } := by
  simp only [exec, execEncTc]
  rw [checked_complete_of_legal ((validTv_iff s.tv).2 h)]

/-- Settles O44: the check of `TV` fails. -/
theorem encPmRefusesAnIllegalTimeValue : Obligations.EncPmRefusesAnIllegalTimeValue := by
  intro s hillegal
  simp only [exec, execEncPm]
  exact checked_of_not_legal (mt (validTv_iff s.tv).1 hillegal) _ _

/-- Settles O43: the three commands make the same check, and each writes the channels it sends from
the same time value. -/
theorem encTcIsBothChannels : Obligations.EncTcIsBothChannels := by
  refine fun s => ⟨fun hlegal => ?_, fun hillegal => ?_⟩
  · refine ⟨_, _, _, exec_encAm_of_legal hlegal, exec_encPm_of_legal hlegal,
      exec_encTc_of_legal hlegal, ?_, ?_⟩
    · dsimp only
    · dsimp only
  · simp only [exec, execEncTc]
    exact checked_of_not_legal (mt (validTv_iff s.tv).1 hillegal) _ _

/-! ### The window of an extended minute -/

/-- R161: the extended minutes, as the statements write them. -/
theorem extendedMinute_eq_true_iff (minute : Nat) :
    extendedMinute minute = true ↔
      (10 ≤ minute ∧ minute ≤ 15) ∨ (40 ≤ minute ∧ minute ≤ 45) := by
  rw [← Bool.not_eq_false, extendedMinute_eq_false_iff, not_not]

/-- R175: the windows of the six minutes of a super-frame lie in its 360 bits. -/
theorem window_index_lt {minute i : Nat} (hx : extendedMinute minute = true) (hi : i < 60) :
    60 * (minute % 10) + i < 360 := by
  have hminute := (extendedMinute_eq_true_iff minute).1 hx
  omega

/-- R171, R175: a cell of an extended minute, by the statements' own bit of the sequence. -/
theorem pmCell_extended_eq_frameBit {tv : TimeValue} {dn : BitVec 6} {len i : Nat}
    (hx : extendedMinute tv.minute.toNat = true) (hi : i < 60) :
    pmCell (pmEncode tv dn len) i =
      if frameBit (seqno tv) (60 * (tv.minute.toNat % 10) + i) = true then .one else .zero := by
  rw [pmCell_extended hi hx, superFrame_getD _ _ (window_index_lt hx hi), pmSymOfBit]

/-- Settles O41: an extended minute has 60 seconds, each of its cells is a bit of the sequence, and
no assignment reaches cell 60. -/
theorem encPmWritesTheExtendedWindow : Obligations.EncPmWritesTheExtendedWindow := by
  intro s hlegal hextended
  have hx := (extendedMinute_eq_true_iff _).2 hextended
  have hlen : lengthOf s.tv = 60 := lengthOf_of_extendedMinute hx
  refine ⟨_, exec_encPm_of_legal hlegal, ?_, fun i _ => amCell_clearAm i,
    fun i hi => pmCell_extended_eq_frameBit hx hi,
    pmCell_pmEncode_of_le s.tv s.dstNext (by decide) hlen.le⟩
  rw [hlen]
  rfl

end Sys2Proof.Machine
end

section
/-! Family 43_am_decoder.md: the model's fields are the statement's weighed cells, and the minutes
that decode are those the checks of R192 to R197 pass. -/

namespace Sys2Proof.Machine

/-! ### Weighed cells -/

theorem weigh_append (am : AmBuf) (l r : List (Nat × Nat)) :
    weigh am (l ++ r) = weigh am l + weigh am r := by
  simp [weigh]

theorem weigh_reverse (am : AmBuf) (l : List (Nat × Nat)) :
    weigh am l.reverse = weigh am l := by
  rw [weigh, weigh, List.map_reverse, List.sum_reverse]

/-- Weights that all grow by a factor make the sum grow by it. -/
theorem weigh_scale (am : AmBuf) (l : List (Nat × Nat)) (c : Nat) :
    weigh am (l.map fun p => (p.1, p.2 * c)) = weigh am l * c := by
  simp only [weigh, List.map_map, ← List.sum_map_mul_right]
  refine congrArg List.sum (List.map_congr_left fun p _ => ?_)
  simp only [Function.comp_apply, ite_mul, Nat.zero_mul]

/-- Cells weigh at most what they do when all hold `ONE`. -/
theorem weigh_le (am : AmBuf) (l : List (Nat × Nat)) : weigh am l ≤ (l.map Prod.snd).sum := by
  refine List.sum_le_sum fun p _ => ?_
  split
  · exact Nat.le_refl _
  · exact Nat.zero_le _

/-- R104: a number read from cells is their sum by powers of two. -/
theorem bitsToNat_cells (am : AmBuf) (position : Nat → Nat) (n : Nat) :
    bitsToNat (fun i => amCell am (position i) == .one) n
      = weigh am ((List.range n).map fun i => (position i, 2 ^ i)) := by
  induction n with
  | zero => rfl
  | succ n ih =>
    rw [bitsToNat, ih, List.range_succ, List.map_append, weigh_append]
    by_cases h : amCell am (position n) = .one
    · simp [weigh, h]
    · simp [weigh, h]

/-! ### The weights of a field -/

/-- The cells of digit group `j` of a field and their weights in the digit, most significant first
(R102, R103). -/
def groupWeights (positions : List Nat) (j : Nat) : List (Nat × Nat) :=
  ((List.range (min 4 (positions.length - 4 * j))).map fun i =>
    (positions.reverse.getD (4 * j + i) 0, 2 ^ i)).reverse

/-- The cells of the `n` low digit groups of a field and their weights in the number, most
significant first (R103). -/
def fieldWeights (positions : List Nat) : Nat → List (Nat × Nat)
  | 0 => []
  | n + 1 =>
    (groupWeights positions n).map (fun p => (p.1, p.2 * 10 ^ n)) ++ fieldWeights positions n

theorem fieldDigit_eq_weigh (am : AmBuf) (positions : List Nat) (j : Nat) :
    fieldDigit am positions j = weigh am (groupWeights positions j) := by
  rw [fieldDigit, groupWeights, weigh_reverse,
    bitsToNat_cells am fun i => positions.reverse.getD (4 * j + i) 0]

/-- R103: the sum of a field's digits is its weighed cells. -/
theorem sum_fieldDigit_eq_weigh (am : AmBuf) (positions : List Nat) (n : Nat) :
    ((List.range n).map fun j => fieldDigit am positions j * 10 ^ j).sum
      = weigh am (fieldWeights positions n) := by
  induction n with
  | zero => rfl
  | succ n ih =>
    rw [List.range_succ, List.map_append, List.sum_append, ih, fieldWeights, weigh_append,
      weigh_scale, ← fieldDigit_eq_weigh, List.map_singleton, List.sum_singleton, Nat.add_comm]

/-- R104: the fields that read a number: binary cells, and no digit above 9. -/
def FieldReads (am : AmBuf) (positions : List Nat) : Prop :=
  (∀ p ∈ positions, amCell am p = .zero ∨ amCell am p = .one) ∧
    ∀ j < (positions.length + 3) / 4, weigh am (groupWeights positions j) ≤ 9

/-- R104: a field that reads a number reads its weighed cells. -/
theorem getField_of_fieldReads {am : AmBuf} {positions : List Nat} (h : FieldReads am positions) :
    getField am positions =
      .value (weigh am (fieldWeights positions ((positions.length + 3) / 4))) := by
  obtain ⟨hbinary, hdigits⟩ := h
  rw [getField_binary hbinary, if_pos fun j hj => fieldDigit_eq_weigh am positions j ▸ hdigits j hj,
    sum_fieldDigit_eq_weigh]

/-- R104: only such a field reads a number. -/
theorem fieldReads_of_getField {am : AmBuf} {positions : List Nat} {v : Nat}
    (h : getField am positions = .value v) : FieldReads am positions := by
  by_cases hbinary : ∀ p ∈ positions, amCell am p = .zero ∨ amCell am p = .one
  · rw [getField_binary hbinary] at h
    split at h
    next hdigits =>
      exact ⟨hbinary, fun j hj => fieldDigit_eq_weigh am positions j ▸ hdigits j hj⟩
    next => cases h
  · rw [getField_bad hbinary] at h
    cases h

/-! ### The fields of a minute -/

/-- The BCD fields of R196. -/
def bcdFields : List (List Nat) :=
  [minutePositions, hourPositions, daysPositions, ut1Positions, yearPositions, dstPositions]

/-- R194: the data positions are the flags and the cells of the BCD fields. -/
theorem mem_dataPositions (i : Nat) :
    i ∈ dataPositions ↔ i ∈ flagPositions ∨ ∃ f ∈ bcdFields, i ∈ f := by
  have hperm : dataPositions.Perm (flagPositions ++ bcdFields.flatten) := by decide
  rw [hperm.mem_iff, List.mem_append, List.mem_flatten]

/-- R196: a digit of the fields that has fewer than four bits is at most 7, so only the groups of
four bits can fail. -/
theorem digits_le_nine_iff (am : AmBuf) :
    (∀ f ∈ bcdFields, ∀ j < (f.length + 3) / 4, weigh am (groupWeights f j) ≤ 9) ↔
      ∀ g ∈ digitGroups, weigh am g ≤ 9 := by
  have hgroups : ∀ g ∈ digitGroups, ∃ f ∈ bcdFields, ∃ j < (f.length + 3) / 4,
      groupWeights f j = g := by decide
  have hnarrow : ∀ f ∈ bcdFields, ∀ j < (f.length + 3) / 4, groupWeights f j ∈ digitGroups ∨
      ((groupWeights f j).map Prod.snd).sum ≤ 9 := by decide
  constructor
  · intro h g hg
    obtain ⟨f, hf, j, hj, rfl⟩ := hgroups g hg
    exact h f hf j hj
  · intro h f hf j hj
    rcases hnarrow f hf j hj with hmem | hle
    · exact h _ hmem
    · exact Nat.le_trans (weigh_le am _) hle

/-- R194, R196: the flags are binary and every field reads a number exactly if the data cells are
binary and no group of four bits is above 9. -/
theorem fieldsRead_iff (am : AmBuf) :
    (flagsBinary am = true ∧ ∀ f ∈ bcdFields, FieldReads am f) ↔
      (∀ i ∈ dataPositions, amCell am i = .zero ∨ amCell am i = .one) ∧
        ∀ g ∈ digitGroups, weigh am g ≤ 9 := by
  simp only [← digits_le_nine_iff, flagsBinary, List.all_eq_true, Bool.or_eq_true, beq_iff_eq]
  constructor
  · rintro ⟨hflags, hfields⟩
    refine ⟨fun i hi => ?_, fun f hf => (hfields f hf).2⟩
    rcases (mem_dataPositions i).1 hi with hflag | ⟨f, hf, hmem⟩
    · exact hflags i hflag
    · exact (hfields f hf).1 i hmem
  · rintro ⟨hdata, hdigits⟩
    exact ⟨fun i hi => hdata i ((mem_dataPositions i).2 (.inl hi)), fun f hf =>
      ⟨fun i hi => hdata i ((mem_dataPositions i).2 (.inr ⟨f, hf, hi⟩)), hdigits f hf⟩⟩

/-- R196: what the six fields read, where all read a number. -/
theorem getFields_of_fieldReads {am : AmBuf} (h : ∀ f ∈ bcdFields, FieldReads am f) :
    getField am minutePositions = .value (minuteIn am) ∧
      getField am hourPositions = .value (hourIn am) ∧
      getField am daysPositions = .value (daysIn am) ∧
      getField am ut1Positions = .value (magnitudeIn am) ∧
      getField am yearPositions = .value (yearIn am) ∧
      getField am dstPositions = .value (dstIn am) := by
  have hread := fun f hf => getField_of_fieldReads (h f hf)
  refine ⟨hread _ ?_, hread _ ?_, hread _ ?_, hread _ ?_, hread _ ?_, hread _ ?_⟩
  all_goals simp [bcdFields]

/-! ### The value of a minute -/

/-- R128: the epoch window splits the two-digit years at 70. -/
theorem fullYear_of_lt_hundred {yy : Nat} (h : yy < 100) :
    fullYear Config.epoch yy = if yy < 70 then 2000 + yy else 1900 + yy := by
  simp only [fullYear, Config.epoch]
  split
  · omega
  · omega

/-- R198, R199: the value of the weighed fields. -/
theorem decodedValue_eq_valueIn {am : AmBuf} (h : yearIn am < 100) :
    decodedValue am (minuteIn am) (hourIn am) (daysIn am) (magnitudeIn am) (yearIn am) (dstIn am)
      = valueIn am := by
  have hut1 : decodedUt1 (magnitudeIn am) (amCell am 38) = if amCell am 38 = .one then
      100 * (magnitudeIn am : Int) else -(100 * (magnitudeIn am : Int)) := by
    rw [decodedUt1, Nat.cast_mul, Int.mul_comm]
    rfl
  rw [decodedValue, valueIn, fullYear_of_lt_hundred h, hut1]
  rfl

/-- R196, R197, R199: the cells give the value of the weighed fields, if these are in range. -/
theorem decodeCells_of_fieldReads {am : AmBuf} (h : ∀ f ∈ bcdFields, FieldReads am f) :
    decodeCells am =
      if rangesHold (minuteIn am) (hourIn am) (daysIn am) (amCell am 55 == .one) then
        some (valueIn am)
      else none := by
  obtain ⟨hminute, hhour, hdays, hut1, hyear, hdst⟩ := getFields_of_fieldReads h
  rw [decodeCells, hminute, hhour, hdays, hut1, hyear, hdst]
  simp only [decodedValue_eq_valueIn (getField_lt hyear)]

/-- R196: the cells give a value only where every field reads a number. -/
theorem fieldReads_of_decodeCells {am : AmBuf} {tv : TimeValue} (h : decodeCells am = some tv) :
    ∀ f ∈ bcdFields, FieldReads am f := by
  unfold decodeCells at h
  split at h
  next hminute hhour hdays hut1 hyear hdst =>
    simp only [bcdFields, List.forall_mem_cons]
    exact ⟨fieldReads_of_getField hminute, fieldReads_of_getField hhour,
      fieldReads_of_getField hdays, fieldReads_of_getField hut1, fieldReads_of_getField hyear,
      fieldReads_of_getField hdst, List.forall_mem_nil _⟩
  next => cases h

/-! ### The minutes that decode -/

theorem marksHold_iff (am : AmBuf) :
    marksHold am = true ↔ ∀ i ∈ amMarks, amCell am i = .mark := by
  simp only [marksHold, List.all_eq_true, beq_iff_eq]

theorem zerosHold_iff (am : AmBuf) :
    zerosHold am = true ↔ ∀ i ∈ amZeros, amCell am i = .zero := by
  simp only [zerosHold, List.all_eq_true, beq_iff_eq]

theorem signHolds_iff (am : AmBuf) :
    signHolds am = true ↔ amCell am 36 ≠ amCell am 37 ∧ amCell am 36 = amCell am 38 := by
  simp only [signHolds, Bool.and_eq_true, bne_iff_ne, beq_iff_eq]

/-- R197, with day 366 apart. -/
theorem rangesHold_cells_iff (am : AmBuf) :
    rangesHold (minuteIn am) (hourIn am) (daysIn am) (amCell am 55 == .one) = true ↔
      minuteIn am < 60 ∧ hourIn am < 24 ∧ 1 ≤ daysIn am ∧ daysIn am ≤ 366 ∧
        (daysIn am = 366 → amCell am 55 = .one) := by
  simp only [rangesHold_iff, beq_iff_eq]
  by_cases h55 : amCell am 55 = .one
  · simp only [h55, if_true, implies_true, and_true]
  · simp only [h55, if_false, imp_false]
    omega

/-- R192 to R197: the statement's checks are the decoder's. -/
theorem decodable_iff (am : AmBuf) :
    decodable am ↔
      (marksHold am && zerosHold am && flagsBinary am && signHolds am) = true ∧
        (∀ f ∈ bcdFields, FieldReads am f) ∧
        rangesHold (minuteIn am) (hourIn am) (daysIn am) (amCell am 55 == .one) = true := by
  simp only [Bool.and_eq_true, marksHold_iff, zerosHold_iff, signHolds_iff, rangesHold_cells_iff]
  constructor
  · rintro ⟨hmarks, hzeros, hdata, hsign, hsign', hdigits, hranges⟩
    obtain ⟨hflags, hfields⟩ := (fieldsRead_iff am).2 ⟨hdata, hdigits⟩
    exact ⟨⟨⟨⟨hmarks, hzeros⟩, hflags⟩, hsign, hsign'⟩, hfields, hranges⟩
  · rintro ⟨⟨⟨⟨hmarks, hzeros⟩, hflags⟩, hsign, hsign'⟩, hfields, hranges⟩
    obtain ⟨hdata, hdigits⟩ := (fieldsRead_iff am).1 ⟨hflags, hfields⟩
    exact ⟨hmarks, hzeros, hdata, hsign, hsign', hdigits, hranges⟩

/-- R201: a minute that passes the checks decodes to the value of its weighed fields. -/
theorem decAm_of_decodable {am : AmBuf} (h : decodable am) : decAm am = some (valueIn am) := by
  obtain ⟨hstructure, hreads, hr⟩ := (decodable_iff am).1 h
  rw [decAm, if_pos hstructure, decodeCells_of_fieldReads hreads, if_pos hr]

/-- R201: a minute that decodes passes the checks. -/
theorem decodable_of_decAm {am : AmBuf} {tv : TimeValue} (h : decAm am = some tv) :
    decodable am := by
  unfold decAm at h
  split at h
  next hstructure =>
    have hreads := fieldReads_of_decodeCells h
    rw [decodeCells_of_fieldReads hreads] at h
    split at h
    next hranges => exact (decodable_iff am).2 ⟨hstructure, hreads, hranges⟩
    next => cases h
  next => cases h

/-- R201: a minute that fails a check has no result. -/
theorem decAm_of_not_decodable {am : AmBuf} (h : ¬decodable am) : decAm am = none :=
  Option.eq_none_iff_forall_ne_some.2 fun _ hsome => h (decodable_of_decAm hsome)

/-- Settles O45: the checks decide whether the decoder has a result, and `DEC_AM` writes what it
has. -/
theorem decAmDecodesExactlyTheValidMinutes : Obligations.DecAmDecodesExactlyTheValidMinutes :=
  fun _ => ⟨fun h => exec_decAm_of_some (decAm_of_decodable h),
    fun h => exec_decAm_of_none (decAm_of_not_decodable h)⟩

end Sys2Proof.Machine
end

section
/-! Family 44_receiver.md: the transitions of the streaming receiver, the minutes it emits, and the
invariant at a clean entry. -/

namespace Sys2Proof.Machine

/-! ### The transitions of state 4, by the kind of position -/

/-- R217: a mark out of place, or none where one is due, breaks the minute off. -/
theorem rxInMinute_of_mismatch {acc : List AmSym} {v : AmSym}
    (h : ¬(acc.length ∈ amMarks ↔ v = .mark)) :
    rxInMinute acc v = rxGo (rxResync (acc.getLastD .unset) v) := by
  rw [rxInMinute_eq, if_pos h]

/-- R217: a symbol that is no mark where one is due leads to state 1. -/
theorem rxInMinute_of_missing_mark {acc : List AmSym} {v : AmSym} (hm : acc.length ∈ amMarks)
    (hv : v ≠ .mark) : rxInMinute acc v = rxGo .unsynced := by
  rw [rxInMinute_of_mismatch fun h => hv (h.1 hm), rxResync, if_neg hv]

/-- R217: a mark out of place right after a mark leads to state 3. -/
theorem rxInMinute_of_double_mark {acc : List AmSym} (hm : acc.length ∉ amMarks)
    (hlast : acc.getLast? = some .mark) : rxInMinute acc .mark = rxGo .twoMarks := by
  rw [rxInMinute_of_mismatch fun h => hm (h.2 rfl), rxResync, if_pos rfl,
    List.getLastD_eq_getLast?, hlast, Option.getD_some, if_pos rfl]

/-- R217: a mark out of place after anything else leads to state 2. -/
theorem rxInMinute_of_single_mark {acc : List AmSym} (hm : acc.length ∉ amMarks)
    (hlast : acc.getLast? ≠ some .mark) : rxInMinute acc .mark = rxGo .oneMark := by
  have hprev : acc.getLast?.getD .unset ≠ .mark := by
    cases h : acc.getLast? with
    | none => decide
    | some w => exact fun hw => hlast (h.trans (congrArg some hw))
  rw [rxInMinute_of_mismatch fun h => hm (h.2 rfl), rxResync, if_pos rfl,
    List.getLastD_eq_getLast?, if_neg hprev]

/-- R218: a one at a fixed zero leads to state 1. -/
theorem rxInMinute_of_one_at_zero {acc : List AmSym} (hz : acc.length ∈ amZeros) :
    rxInMinute acc .one = rxGo .unsynced := by
  have hm := not_mem_amMarks_of_mem_amZeros hz
  rw [rxInMinute_eq, if_neg (by simp [hm]), if_pos ⟨hz, by decide⟩]

/-- R211: the last position is a mark's. -/
theorem mem_amMarks_of_eq_last {i : Nat} (h : i = 59) : i ∈ amMarks := by
  rw [h]
  decide

/-- R211: a mark position admits the mark. -/
theorem skeletonAdmits_mark {i : Nat} (hm : i ∈ amMarks) : skeletonAdmits i .mark :=
  (skeletonAdmits_iff i _).2 ⟨fun _ => rfl, fun h => absurd hm h, fun h => absurd hm h⟩

/-- R211: every other position admits a bit, if it keeps the fixed zeros. -/
theorem skeletonAdmits_of_ne_mark {i : Nat} {v : AmSym} (hm : i ∉ amMarks)
    (hz : i ∈ amZeros → v = .zero) (hv : v ≠ .mark) (hu : v ≠ .unset) : skeletonAdmits i v := by
  refine (skeletonAdmits_iff i v).2 ⟨fun h => absurd h hm, fun _ => hz, fun _ _ => ?_⟩
  cases v with
  | zero => exact .inl rfl
  | one => exact .inr rfl
  | mark => exact absurd rfl hv
  | unset => exact absurd rfl hu

/-! ### The commands -/

/-- R222: `UNSET` is no symbol to feed. -/
theorem exec_rxFeed_unset (s : State) :
    exec (.rxFeed .unset) s = .next { s with status := badArgStatus } := by
  simp only [exec, execRxFeed]
  exact checked_of_not_legal (by decide) _ _

/-- R219: a transition that emits a minute loads it into `AM`, clears `PM` and sets `TC_LEN`. -/
theorem exec_rxFeed_emits {v : AmSym} (h : v ≠ .unset) {s : State} {st : RxState}
    {acc minute : List AmSym}
    (hs : rxStep s.rxState s.rxAcc v = { state := st, acc := acc, emitted := some minute }) :
    exec (.rxFeed v) s =
      .next { s with
        rxState := st, rxAcc := acc, am := emittedAm minute, pm := clearPm, tcLen := 60,
        status := succeeded s.status false true } := by
  rw [exec_rxFeed h, hs]
  rfl

/-- Settles O47: the case split on the receiver's state, and in state 4 on the kind of position and
symbol; one lemma above gives each transition, and `exec_rxFeed_quiet` or `exec_rxFeed_emits` what
it does to the block. -/
theorem rxFeedFollowsTheTransitions : Obligations.RxFeedFollowsTheTransitions := by
  intro s v idx go expected fixedZero
  refine ⟨?_, fun hu => ?_⟩
  · rintro rfl
    exact exec_rxFeed_unset s
  have quiet : ∀ {st : RxState} {acc : List AmSym},
      rxStep s.rxState s.rxAcc v = { state := st, acc := acc, emitted := none } → go st acc :=
    exec_rxFeed_quiet hu
  have inside : s.rxState = .inMinute →
      rxStep s.rxState s.rxAcc v = rxInMinute s.rxAcc v := fun hst => by rw [hst, rxStep]
  refine ⟨fun hst hv => quiet ?_, fun hst hv => quiet ?_, fun hst hv => quiet ?_,
    fun hst hv => quiet ?_, fun hst hv => quiet ?_, fun hst hv => quiet ?_,
    fun hst hm hv hlast => quiet ?_, fun hst hm hv hlast => quiet ?_, fun hst hm hv => quiet ?_,
    fun hst hz hv => quiet ?_, fun hst hm h59 hv => quiet ?_, fun hst hm hz hv => quiet ?_,
    fun hst h59 hv => ?_⟩
  · rw [hst, rxStep, if_pos hv]
  · rw [hst, rxStep, if_neg hv]
  · rw [hst, rxStep, if_pos hv]
  · rw [hst, rxStep, if_neg hv]
  · rw [hst, rxStep, if_pos hv]
  · rw [hst, rxStep, if_neg hv]
  · subst hv
    exact (inside hst).trans (rxInMinute_of_double_mark hm hlast)
  · subst hv
    exact (inside hst).trans (rxInMinute_of_single_mark hm hlast)
  · exact (inside hst).trans (rxInMinute_of_missing_mark hm hv)
  · subst hv
    exact (inside hst).trans (rxInMinute_of_one_at_zero hz)
  · subst hv
    exact (inside hst).trans (rxInMinute_of_admitted (skeletonAdmits_mark hm) h59)
  · have h59 : s.rxAcc.length ≠ 59 := fun h => hm (mem_amMarks_of_eq_last h)
    exact (inside hst).trans
      (rxInMinute_of_admitted (skeletonAdmits_of_ne_mark hm hz hv hu) h59)
  · subst hv
    have hadmits := skeletonAdmits_mark (mem_amMarks_of_eq_last h59)
    have hstep := (inside hst).trans (rxInMinute_of_last hadmits h59)
    refine ⟨_, exec_rxFeed_emits hu hstep, rfl, fun i hi => ?_, ?_, fun i _ => pmCell_clearPm i⟩
    · rw [amCell_emittedAm, if_pos hi]
    · rw [amCell_emittedAm, if_neg (by decide)]

/-- Settles O48: no check stands before the command. -/
theorem rxResetResetsTheReceiverOnly : Obligations.RxResetResetsTheReceiverOnly := by
  intro s
  simp only [exec, execRxReset, complete_eq]

/-! ### What is emitted -/

/-- R211, R219: only state 4 emits, and from a beginning of a skeleton it emits a whole one. -/
theorem skeleton_of_rxStep_emitted {st : RxState} {acc minute : List AmSym} {v : AmSym}
    (hu : v ≠ .unset) (h : ReceiverHolds st acc) (he : (rxStep st acc v).emitted = some minute) :
    minute.length = 60 ∧ skeletonHolds minute := by
  obtain ⟨-, hin⟩ := h
  cases st with
  | unsynced => cases he
  | oneMark => cases he
  | twoMarks =>
    rw [rxStep] at he
    split at he <;> cases he
  | inMinute =>
    obtain ⟨-, -, hs⟩ := hin rfl
    rw [rxStep] at he
    obtain ⟨e, -, -⟩ | ⟨e, hv, h59⟩ | ⟨_, e, -, -⟩ := rxInMinute_cases acc v hu <;>
      rw [e] at he <;> cases he
    exact ⟨by rw [List.length_append, h59, List.length_singleton], skeletonHolds_snoc hs hv⟩

/-- Settles O49: the effect with `EMIT` = 1 is an emission, and what state 4 emits is a skeleton. -/
theorem emittedMinuteHasTheSkeleton : Obligations.EmittedMinuteHasTheSkeleton := by
  intro s t v hinv ht hemit
  cases exec_effect ht with
  | refused => cases hemit
  | computed _ _ hi => simp [RunsPrimitive] at hi
  | encoded _ _ hi => simp at hi
  | fed => cases hemit
  | emitted hu minute he =>
    obtain ⟨hlen, hs⟩ := skeleton_of_rxStep_emitted hu ((receiverInv_iff s).1 hinv) he
    have hsent : sentMinute (emittedAm minute) = minute := sentMinute_emittedAm hlen
    exact ⟨hsent.symm ▸ hs, rfl⟩

/-- Settles O50: two marks lead to state 3 from every state, a beginning of the minute to state 4
with that beginning received, and the whole of it to its emission. -/
theorem receiverLocksOnFromEveryState : Obligations.ReceiverLocksOnFromEveryState := by
  intro s minute hlen hs
  refine ⟨fun k h1 hk => ?_, ?_⟩
  · obtain rfl | h2 : k = 1 ∨ 2 ≤ k := by omega
    · have hfirst : minute.take 1 = [.mark] := by
        have hmark : minute[0] = .mark := hs 0 (by omega)
        rw [List.take_succ_eq_append_getElem (by omega), hmark]
        rfl
      obtain ⟨u, hfeed, hstate, hemit⟩ := feedAll_two_marks s
      exact ⟨u, hfirst ▸ hfeed, hemit, fun _ => hstate, fun h => absurd h (by decide)⟩
    · obtain ⟨u, hfeed, hreceiving⟩ := feedAll_mark_take hlen hs s h2 (by omega)
      exact ⟨u, hfeed, hreceiving.quiet, fun h => by omega,
        fun _ => ⟨hreceiving.state, hreceiving.symbols⟩⟩
  · obtain ⟨t, hfeed, hemit, hstate, hacc, ham, htc⟩ := feedAll_mark_minute hlen hs s
    refine ⟨t, hfeed, hemit, hstate, hacc, htc, ?_, ?_⟩
    · rw [ham, sentMinute_emittedAm hlen]
    · rw [ham, amCell_emittedAm, if_neg (by decide)]

/-! ### The invariant at a clean entry -/

/-- A block at its reset values meets the invariant (R270). -/
theorem Inv.of_atReset {s : State} (h : atReset s) : Inv s := by
  have hreset := inv_resetBlock s
  rwa [h] at hreset

/-- Serving one interaction keeps the invariant. -/
theorem Inv.serveEvent {e : HostEvent} {s t : State} (h : Inv s) (ht : serveEvent e s = .next t) :
    Inv t := by
  cases e with
  | access a => exact h.serveAccess ht
  | hardReset =>
    cases ht
    exact inv_resetBlock s

/-- Serving a sequence of interactions keeps the invariant. -/
theorem Inv.serveAll {events : List HostEvent} {s t : State} (h : Inv s)
    (ht : serveAll events s = .next t) : Inv t := by
  induction events generalizing s with
  | nil =>
    cases ht
    exact h
  | cons e events ih =>
    rw [Machine.serveAll] at ht
    split at ht
    next u hu =>
      have hstart : Inv (takeFromPort s.port s) := h.of_frame rfl
      exact ih (hstart.serveEvent hu) ht
    next => cases ht
    next => cases ht

/-- What a sequence of interactions leaves behind after reset meets the invariant. -/
theorem Inv.of_resultOf {events : List HostEvent} {s : State} (h : resultOf events s) : Inv s := by
  obtain ⟨t, ht, hs⟩ := h
  have hreset : Inv State.reset := Inv.of_atReset rfl
  exact hs ▸ (hreset.serveAll ht).of_frame rfl

/-- Settles O56: the two alternatives of the launch premise. -/
theorem cleanEntryMeetsTheInvariant : Obligations.CleanEntryMeetsTheInvariant := by
  rintro s ⟨hreset | ⟨_, hresult⟩, -⟩
  · exact .of_atReset hreset
  · exact .of_resultOf hresult

end Sys2Proof.Machine
end

section
/-! Family 45_control.md: the two control commands. -/

namespace Sys2Proof.Machine

/-! ### `NOP` -/

/-- Settles O21: the command is completion alone, and completion writes `STATUS` only. -/
theorem nopOnlyReportsSuccess : Obligations.NopOnlyReportsSuccess := by
  intro s
  simp only [exec, execNop, complete_eq]

/-! ### `SOFT_RESET` -/

/-- R231: the status of the one exception to R245 is that of a success after the reset values, so
`STICKY` is 0 whatever it was. -/
theorem statusAfterSoftReset_eq : statusAfterSoftReset = succeeded Status.clear false false := rfl

/-- R231: the word the host reads after `SOFT_RESET`. -/
theorem statusWord_statusAfterSoftReset : statusWord statusAfterSoftReset = 0x00000001 := by decide

/-- R231, R271: no check stands before the reset, and the block's own state before it is forgotten. -/
theorem exec_softReset (s : State) :
    exec .softReset s =
      .next { State.reset with
        status := statusAfterSoftReset, port := s.port, response := s.response } := by
  simp only [exec, execSoftReset, resetBlock]

/-- Settles O20: the command's next state and the word of its status, each said above. -/
theorem softResetIsResetWithOk : Obligations.SoftResetIsResetWithOk := by
  intro s
  rw [← statusAfterSoftReset_eq]
  exact ⟨exec_softReset s, statusWord_statusAfterSoftReset⟩

end Sys2Proof.Machine
end

section
/-! Family 60_exceptions.md: the words and operands that are refused; every command
completes. -/

namespace Sys2Proof.Machine

/-! ### `ILLEGAL` -/

/-- Settles O6: by `decode_error_iff` the four conditions are met by the words that decode to no
command. -/
theorem illegalExactlyOnTheWordsOfTheRule : Obligations.IllegalExactlyOnTheWordsOfTheRule := by
  refine ⟨by decide, fun s w => ⟨fun hbad => ?_, fun hgood => ?_⟩⟩
  · obtain ⟨e, he⟩ := (decode_error_iff w).2 hbad
    rw [runCommand_of_error he, raiseError_illegal]
  · cases hd : decode w with
    | error e => exact absurd ((decode_error_iff w).1 ⟨e, hd⟩) hgood
    | ok i => exact ⟨i, rfl, runCommand_of_decode hd s⟩

/-! ### Every command completes -/

/-- Settles O7: the case split on what is pending; an access faults exactly where the window does
not accept it. -/
theorem everyCommandCompletesAndOnlyBusErrorsFault :
    Obligations.EveryCommandCompletesAndOnlyBusErrorsFault := by
  refine ⟨exec_completes, fun s => ?_⟩
  cases hp : s.port with
  | nil => exact .inl ⟨s, step_of_port_nil hp⟩
  | cons e rest =>
    rw [step_of_port_cons hp]
    cases e with
    | hardReset => exact .inl ⟨_, rfl⟩
    | access a =>
      cases hacc : acceptAccess a with
      | ok r => exact .inl (serveAccess_of_ok hacc _)
      | error cause => exact .inr ⟨a, rest, cause, rfl, serveAccess_of_error hacc _⟩

/-! ### `BADARG` -/

/-- R85, R222, as the statements write it. -/
theorem symbolLegal_iff (sym : AmSym) : symbolLegal sym = true ↔ sym ≠ .unset := bne_iff_ne

/-- R86, as the statements write it. -/
theorem indexLegal_iff (index : Nat) : indexLegal index = true ↔ index ≤ 254 := decide_eq_true_iff

/-- R242, R246: every command but `SOFT_RESET` checks its operands by the rule's table and then
completes; a command without operands has nothing to fail. -/
theorem exec_eq_checked {i : Instr} (hi : i ≠ .softReset) (s : State) :
    ∃ (legal : Bool) (effect : State) (valid emit : Bool),
      (legal = true ↔ operandsLegal i s) ∧
        exec i s = checked legal s (complete effect valid emit) := by
  have htv : validTv s.tv = true ↔ legalTv s.tv := validTv_iff s.tv
  cases i with
  | nop => exact ⟨true, _, _, _, iff_of_true rfl trivial, rfl⟩
  | encAm => exact ⟨_, _, _, _, htv, rfl⟩
  | encPm => exact ⟨_, _, _, _, htv, rfl⟩
  | encTc => exact ⟨_, _, _, _, htv, rfl⟩
  | decAm =>
    simp only [exec, execDecAm]
    cases decAm s.am with
    | none => exact ⟨true, _, _, _, iff_of_true rfl trivial, rfl⟩
    | some tv => exact ⟨true, _, _, _, iff_of_true rfl trivial, rfl⟩
  | rxFeed sym => exact ⟨_, _, _, _, symbolLegal_iff sym, rfl⟩
  | rxReset => exact ⟨true, _, _, _, iff_of_true rfl trivial, rfl⟩
  | hamming => exact ⟨_, _, _, _, hammingLegal_iff s.opa, rfl⟩
  | lfsrRd index => exact ⟨_, _, _, _, indexLegal_iff index, rfl⟩
  | bcdPack n => exact ⟨_, _, _, _, widthLegal_iff n, rfl⟩
  | bcdUnpack n => exact ⟨_, _, _, _, unpackLegal_iff n s.opa, rfl⟩
  | moc => exact ⟨_, _, _, _, htv, rfl⟩
  | minlen => exact ⟨_, _, _, _, htv, rfl⟩
  | softReset => exact absurd rfl hi

/-- Settles O22: the two endings of a checked command; `SOFT_RESET` has no check to fail, and its
status is that of a success. -/
theorem badArgExactlyWhenTheOperandsFail : Obligations.BadArgExactlyWhenTheOperandsFail := by
  refine ⟨by decide, fun i s => ?_⟩
  by_cases hi : i = .softReset
  · subst hi
    exact ⟨fun hillegal => absurd trivial hillegal, fun _ => ⟨_, exec_softReset s, rfl, rfl, rfl⟩⟩
  · obtain ⟨legal, effect, valid, emit, hcheck, hexec⟩ := exec_eq_checked hi s
    rw [hexec, ← hcheck]
    exact ⟨fun hillegal => checked_of_not_legal hillegal _ _,
      fun hlegal => ⟨_, checked_complete_of_legal hlegal _ _ _ _, rfl, rfl, rfl⟩⟩

end Sys2Proof.Machine
end

section
/-! Family 60_exceptions.md: `STICKY` over a step and over a run. -/

namespace Sys2Proof.Machine

/-! ### What can write `STATUS` -/

/-- R62: an access that is served at the offset of `CMD` as a write is the host program's line. -/
theorem access_eq_hostWrite_cmd {a : BusAccess} {w : Word} {s t : State}
    (h : serveAccess a s = .next t) (hop : a.op = .write w) (hoff : a.offset = 0x04#7) :
    HostEvent.access a = hostWrite .cmd w := by
  obtain ⟨r, hacc, -⟩ := serveAccess_next h
  obtain ⟨hword, -⟩ := acceptAccess_ok hacc
  obtain ⟨-, hwidth, henables⟩ := (wholeWord_iff a).1 hword
  cases a
  subst hop hoff hwidth henables
  rfl

/-- R34, R245: a step leaves `STATUS` as it was, or served a hardware reset or a command write. -/
theorem step_status_cases {s t : State} (h : step s = .next t) :
    t.status = s.status ∨ (∃ rest, s.port = .hardReset :: rest) ∨
      ∃ w rest, s.port = hostWrite .cmd w :: rest ∧
        runCommand w (takeFromPort rest s) = .next t := by
  obtain ⟨-, rfl⟩ | ⟨rest, hp, -⟩ | ⟨a, rest, hp, hserve⟩ := step_next h
  · exact .inl rfl
  · exact .inr (.inl ⟨rest, hp⟩)
  · obtain ⟨w, hop, hoff, hrun⟩ | hframe := serveAccess_effect hserve
    · rw [access_eq_hostWrite_cmd hserve hop hoff] at hp
      exact .inr (.inr ⟨w, rest, hp, hrun⟩)
    · left
      rw [hframe, takeFromPort_status]

/-! ### One step -/

/-- R245, R248: a command write clears `STICKY` only as `SOFT_RESET`. -/
theorem eq_softReset_of_runCommand_clears_sticky {w : Word} {s t : State}
    (h : runCommand w s = .next t) (hs : s.status.sticky = true) (ht : t.status.sticky = false) :
    w = encode .softReset := by
  obtain ⟨i, hd, hexec⟩ | ⟨e, -, rfl⟩ := runCommand_next h
  · obtain ⟨-, hw⟩ := decodedWordIsItsOnlyEncoding w i hd
    by_cases hi : i = .softReset
    · rw [← hw, hi]
    · obtain ⟨-, -, -, -, hsticky⟩ := everyCommandUpdatesStatus i s t hexec hi
      simp [hs, ht] at hsticky
  · simp [statusAfter] at ht

/-- Settles O24: of what can write `STATUS`, only the two resets clear `STICKY`. -/
theorem stickyStaysUntilReset : Obligations.StickyStaysUntilReset := by
  intro s t h hs ht
  obtain hsame | ⟨rest, hp⟩ | ⟨w, rest, hp, hrun⟩ := step_status_cases h
  · rw [hsame, hs] at ht
    cases ht
  · exact ⟨rest, .inl hp⟩
  · rw [eq_softReset_of_runCommand_clears_sticky hrun hs ht] at hp
    exact ⟨rest, .inr hp⟩

/-! ### A run -/

/-- A run that ends in a state took its first step and went on from there. -/
theorem run_succ_eq_next {k : Nat} {s t : State} (h : Sys2Proof.core.run (k + 1) s = .next t) :
    ∃ u, step s = .next u ∧ Sys2Proof.core.run k u = .next t := by
  cases hstep : step s with
  | next u => exact ⟨u, rfl, (run_succ_of_next hstep).symm.trans h⟩
  | fault r => cases (run_succ_of_fault hstep).symm.trans h
  | refused r => cases (run_succ_of_refused hstep).symm.trans h

/-- R248: with no reset pending, a step that ends without an error recorded started without one. -/
theorem errorFree_of_step {s t : State} (h : step s = .next t)
    (hp : ∀ e ∈ s.port, e ≠ .hardReset ∧ e ≠ hostCommand .softReset) (ht : errorFree t) :
    errorFree s := by
  refine Bool.eq_false_iff.2 fun hs => ?_
  obtain ⟨rest, hport⟩ := stickyStaysUntilReset s t h hs ht
  rcases hport with hport | hport
  · exact (hp _ (by simp [hport])).1 rfl
  · exact (hp _ (by simp [hport])).2 rfl

/-- Settles O25, by induction on the run: the states from the first step's next state on are
error free by the induction hypothesis, and then so is the state that step started from. -/
theorem stickyAtTheEndShowsTheWholeRun : Obligations.StickyAtTheEndShowsTheWholeRun := by
  intro k
  induction k with
  | zero =>
    intro s t h _ ht j hj
    obtain rfl := Nat.le_zero.1 hj
    exact ⟨t, h, ht⟩
  | succ k ih =>
    intro s t h hp ht
    obtain ⟨u, hstep, hrun⟩ := run_succ_eq_next h
    have hpu : ∀ e ∈ u.port, e ≠ .hardReset ∧ e ≠ hostCommand .softReset := by
      rw [step_next_port hstep]
      exact fun e he => hp e (List.mem_of_mem_tail he)
    have hlater := ih u t hrun hpu ht
    rintro (_ | j) hj
    · obtain ⟨_, hzero, hu⟩ := hlater 0 (Nat.zero_le k)
      cases hzero
      exact ⟨s, rfl, errorFree_of_step hstep hp hu⟩
    · obtain ⟨v, hv, hfree⟩ := hlater j (Nat.le_of_succ_le_succ hj)
      exact ⟨v, (run_succ_of_next hstep).trans hv, hfree⟩

end Sys2Proof.Machine
end

section
/-! Family 70_reset_and_hazards.md: the values a hardware reset leaves, and the clean entry a run
without an error ends in. -/

namespace Sys2Proof.Machine

/-! ### The reset values -/

/-- What the registers read as does not depend on the bus. -/
theorem observable_overBus (p : List HostEvent) (r : BusResponse) (s : State) :
    observable (overBus p r s) = observable s := rfl

/-- R270: the words of the 22 registers at reset. The buffers have 61 cells of two bits, all set in
the code of `UNSET`, so the last word of each has the bits above cell 60 clear. -/
theorem observable_reset :
    observable State.reset =
      [0x57575642, 0, 0, 0, 0, 0, 0, 0, 0, 0, 0x00000001, 0, 0, 0,
        0xFFFFFFFF, 0xFFFFFFFF, 0xFFFFFFFF, 0x03FFFFFF,
        0xFFFFFFFF, 0xFFFFFFFF, 0xFFFFFFFF, 0x03FFFFFF] := by
  decide

/-- R270: a pending hardware reset leaves nothing of the block's state before it. -/
theorem step_of_port_hardReset {s : State} {rest : List HostEvent}
    (hp : s.port = .hardReset :: rest) : step s = .next (overBus rest .done State.reset) :=
  step_of_port_cons hp

/-- Settles O19: the step's next state is reset over another bus, which neither the registers nor
the cells see. -/
theorem hardwareResetSetsEveryValue : Obligations.HardwareResetSetsEveryValue := by
  intro s rest hp
  refine ⟨overBus rest .done State.reset, step_of_port_hardReset hp, rfl, ?_, ?_, rfl, rfl⟩
  · rw [observable_overBus, observable_reset]
  · exact fun i _ => ⟨amCell_clearAm i, pmCell_clearPm i⟩

/-- Settles O52: reset is a clean entry by the first alternative of the premise, and every clean
entry meets the invariant. -/
theorem resetMeetsTheInvariant : Obligations.ResetMeetsTheInvariant := by
  have hfree : errorFree State.reset := rfl
  have hentry : cleanEntry State.reset := ⟨.inl rfl, hfree⟩
  exact ⟨cleanEntryMeetsTheInvariant _ hentry, hentry, hfree⟩

/-! ### What a run from a clean entry leaves -/

/-- The first alternative of R274 is the second with no earlier access. -/
theorem resultOf_nil_of_atReset {s : State} (h : atReset s) : resultOf [] s :=
  ⟨State.reset, rfl, h⟩

/-- What a sequence leaves behind, and the interaction served next, is what the longer sequence
leaves behind: the interaction sees the block as the sequence left it, over another bus. -/
theorem resultOf_append_of_serveEvent {events rest : List HostEvent} {e : HostEvent} {s t : State}
    (h : resultOf events s) (hserve : serveEvent e (takeFromPort rest s) = .next t) :
    resultOf (events ++ [e]) t := by
  obtain ⟨u, hu, hs⟩ := h
  have hblock : takeFromPort rest s = takeFromPort rest u := hs ▸ rfl
  rw [hblock, serveEvent_overPort e rest u.port u] at hserve
  obtain ⟨v, hv, rfl⟩ := mapNext_eq_next_iff.1 hserve
  refine ⟨v, ?_, rfl⟩
  rw [serveAll_append, hu]
  exact serveAll_cons_of_next hv

/-- A step appends what it serves to the earlier sequence; an idle step appends nothing. -/
theorem exists_resultOf_of_step {events : List HostEvent} {s t : State} (h : resultOf events s)
    (hstep : step s = .next t) : ∃ later : List HostEvent, resultOf later t := by
  cases hp : s.port with
  | nil =>
    cases (step_of_port_nil hp).symm.trans hstep
    exact ⟨events, h⟩
  | cons e rest =>
    exact ⟨events ++ [e],
      resultOf_append_of_serveEvent h ((step_of_port_cons hp).symm.trans hstep)⟩

/-- The second alternative of R274 is kept by a run of any length, whether or not it meets an
error. -/
theorem exists_resultOf_of_run {k : Nat} {events : List HostEvent} {s t : State}
    (h : resultOf events s) (hrun : Sys2Proof.core.run k s = .next t) :
    ∃ later : List HostEvent, resultOf later t := by
  induction k generalizing events s with
  | zero =>
    cases hrun
    exact ⟨events, h⟩
  | succ k ih =>
    obtain ⟨u, hstep, hrest⟩ := run_succ_eq_next hrun
    obtain ⟨later, hlater⟩ := exists_resultOf_of_step h hstep
    exact ih hlater hrest

/-- Settles O57: either alternative of the premise makes the start the result of an earlier
sequence, and so the end; that `STICKY` is 0 there is the run's own premise. -/
theorem errorFreeRunEndsInACleanEntry : Obligations.ErrorFreeRunEndsInACleanEntry := by
  rintro k s t ⟨hreset | ⟨_, hresult⟩, -⟩ hrun hfree
  · exact ⟨.inr (exists_resultOf_of_run (resultOf_nil_of_atReset hreset) hrun), hfree⟩
  · exact ⟨.inr (exists_resultOf_of_run hresult hrun), hfree⟩

end Sys2Proof.Machine
end
